-- ==== Sys2Proof/Word.lean ====
section
/-! DEFINITION. The two widths the Register File works in (00_scope.md section 3): bytes and 16-bit words. -/

namespace Sys2Proof

/-- A byte: the width `W8` of a sub-register view and of one cell of the program buffer. -/
abbrev Byte := BitVec 8

/-- A full register: the width `W16`. -/
abbrev Word := BitVec 16

end Sys2Proof
end

