-- ==== Sys2Proof/Config.lean ====
section
/-! DEFINITION. What an implementation fixes and the spec leaves open. -/

namespace Sys2Proof

/-- `MAX_BUF_LEN`, the largest program buffer LOAD accepts. The spec leaves it OPEN (00_scope.md R6,
92_eei_decisions.md D4), so it has no body and no proof can see its value (log entry 4). -/
opaque Config.maxBufLen : Nat

end Sys2Proof
end

