-- ==== Sys2Proof/Syntax.lean ====
section
/-! DEFINITION. The register names, the decoded Instructions that `seq` holds, and `Instr`: one constructor for
each row of the opcode table. -/

namespace Sys2Proof

/-- The thirteen 16-bit storage cells (10_state.md R13). -/
inductive Cell where
  | ax | bx | cx | dx | cs | ds | es | ss | si | di | bp | sp | ip
  deriving DecidableEq, Repr

/-- The eight 8-bit views (10_state.md R14). -/
inductive View where
  | al | ah | bl | bh | cl | ch | dl | dh
  deriving DecidableEq, Repr

/-- A register view: one of the 21 register names (10_state.md R13, R14). -/
inductive Reg where
  | cell (c : Cell)
  | view (v : View)
  deriving DecidableEq, Repr

/-- The `direction` of a declared Move. No source gives its width or meaning (10_state.md R25, U10): any natural
number, and no rule reads it. DESIGN CHOICE, log entry 11. -/
abbrev Direction := Nat

/-- The `value` of a declared Move, abstract for the same reason. DESIGN CHOICE, log entry 11. -/
abbrev Immediate := Nat

/-- The `address` of a declared Move; it names no address space (20_memory.md R41). DESIGN CHOICE, log entry 11. -/
abbrev Address := Nat

/-- A decoded Instruction, one entry of `seq`: the nine tagged variants of 10_state.md R24. -/
inductive Variant where
  | noop
  | stop
  | increment (r : Reg)
  | decrement (r : Reg)
  | moveRegReg (d : Direction) (r1 r2 : Reg)
  | moveRegMem (d : Direction) (r : Reg) (a : Address)
  | moveImmReg16 (v : Immediate) (r : Reg)
  | moveImmReg8 (v : Immediate) (r : Reg)
  | moveImmMem (v : Immediate) (a : Address)
  deriving DecidableEq, Repr

/-- The rows of the opcode table, in its order: the 27 encoded instructions, the four decode-fault rows and the
fallback. The fault rows carry the offending secondary byte and the fallback its primary byte, so that every bit of
an encoding stands in the syntax; the entry in `seq` keeps neither (41_nop.md R78). Log entry 9. -/
inductive Instr where
  | nop
  | incAx | incCx | incDx | incBx | incSi | incDi
  | decAx | decCx | decDx | decBx
  | incAl | incCl | incDl | incBl
  | decAl | decCl | decDl | decBl
  | decAh | decCh | decDh | decBh
  | incAh | incCh | incDh | incBh
  | invalidSecondaryFe (ss : Byte)
  | invalidSecondaryFc (ss : Byte)
  | truncatedFe
  | truncatedFc
  | nopFallback (op : Byte)
  deriving DecidableEq, Repr

end Sys2Proof
end

