-- ==== Sys2Proof/WellFormed.lean ====
section
/-! DEFINITION. Which terms of the syntax an encoding can stand for. -/

namespace Sys2Proof

/-- The two group bytes (30_encoding.md R49). -/
def isGroupByte (op : Byte) : Bool := op == 0xFE#8 || op == 0xFC#8

/-- The twelve secondary bytes of group 0xFE: 0xC0 to 0xC3 and 0xC8 to 0xCF (30_encoding.md R59). -/
def listedFe (ss : Byte) : Bool :=
  (0xC0 ≤ ss.toNat && ss.toNat ≤ 0xC3) || (0xC8 ≤ ss.toNat && ss.toNat ≤ 0xCF)

/-- The four secondary bytes of group 0xFC: 0xC4 to 0xC7 (30_encoding.md R60). -/
def listedFc (ss : Byte) : Bool := 0xC4 ≤ ss.toNat && ss.toNat ≤ 0xC7

/-- The 243 fallback values 0x00 to 0x3F, 0x44, 0x45, 0x4C to 0x8F, 0x91 to 0xFB, 0xFD and 0xFF
(30_encoding.md R58). -/
def isFallbackByte (op : Byte) : Bool :=
  op.toNat ≤ 0x3F || op.toNat == 0x44 || op.toNat == 0x45 || (0x4C ≤ op.toNat && op.toNat ≤ 0x8F)
    || (0x91 ≤ op.toNat && op.toNat ≤ 0xFB) || op.toNat == 0xFD || op.toNat == 0xFF

/-- The row's side condition: a fault row's secondary byte is one its group does not list (30_encoding.md R61), a
fallback's byte is one of the 243 (R58). Every other row has no operand to constrain. -/
def Instr.wf : Instr → Bool
  | .invalidSecondaryFe ss => !listedFe ss
  | .invalidSecondaryFc ss => !listedFc ss
  | .nopFallback op => isFallbackByte op
  | .nop | .incAx | .incCx | .incDx | .incBx | .incSi | .incDi | .decAx | .decCx | .decDx | .decBx
  | .incAl | .incCl | .incDl | .incBl | .decAl | .decCl | .decDl | .decBl
  | .decAh | .decCh | .decDh | .decBh | .incAh | .incCh | .incDh | .incBh
  | .truncatedFe | .truncatedFc => true

/-- The row is a group byte with nothing after it: it is an instruction only at the last offset of the buffer
(30_encoding.md R62). -/
def Instr.endsBuffer : Instr → Bool
  | .truncatedFe | .truncatedFc => true
  | _ => false

/-- The register has an Increment encoding (30_encoding.md R56, R59, R60). -/
def Reg.hasIncrement : Reg → Bool
  | .cell c => c ∈ [Cell.ax, .cx, .dx, .bx, .si, .di]
  | .view _ => true

/-- The register has a Decrement encoding (30_encoding.md R57, R59). -/
def Reg.hasDecrement : Reg → Bool
  | .cell c => c ∈ [Cell.ax, .cx, .dx, .bx]
  | .view _ => true

/-- The Decoder can emit this entry: Noop, and Increment or Decrement of a register that has the encoding
(10_state.md R24, 30_encoding.md R66). -/
def Variant.emitted : Variant → Bool
  | .noop => true
  | .increment r => r.hasIncrement
  | .decrement r => r.hasDecrement
  | .stop | .moveRegReg _ _ _ | .moveRegMem _ _ _ | .moveImmReg16 _ _ | .moveImmReg8 _ _ | .moveImmMem _ _ => false

end Sys2Proof
end

