-- ==== Sys2Proof/Decode.lean ====
section
/-! DEFINITION. The Decoder's tables, one decode of the bytes at a position, what the Decoder appends for a row, the
encoder, and the numbering of the opcode table's words. -/

namespace Sys2Proof

/-- Why bytes decode to no row: there is no opcode byte at all. A decode step never meets this, since it runs only
while `dp < N` (30_encoding.md R53). -/
inductive DecodeReject where
  | noBytes
  deriving DecidableEq, Repr

/-- The eleven one-byte rows: 0x90, `PRIMARY_INC` and `PRIMARY_DEC` (30_encoding.md R55, R56, R57). -/
def primaryTable : List (Byte × Instr) :=
  [(0x90#8, .nop),
   (0x40#8, .incAx), (0x41#8, .incCx), (0x42#8, .incDx), (0x43#8, .incBx), (0x46#8, .incSi), (0x47#8, .incDi),
   (0x48#8, .decAx), (0x49#8, .decCx), (0x4A#8, .decDx), (0x4B#8, .decBx)]

/-- `GROUP[0xFE]` (30_encoding.md R59). -/
def groupFeTable : List (Byte × Instr) :=
  [(0xC0#8, .incAl), (0xC1#8, .incCl), (0xC2#8, .incDl), (0xC3#8, .incBl),
   (0xC8#8, .decAl), (0xC9#8, .decCl), (0xCA#8, .decDl), (0xCB#8, .decBl),
   (0xCC#8, .decAh), (0xCD#8, .decCh), (0xCE#8, .decDh), (0xCF#8, .decBh)]

/-- `GROUP[0xFC]` (30_encoding.md R60). -/
def groupFcTable : List (Byte × Instr) :=
  [(0xC4#8, .incAh), (0xC5#8, .incCh), (0xC6#8, .incDh), (0xC7#8, .incBh)]

/-- The row of a byte in a table, if the table lists it. -/
def tableRow : List (Byte × Instr) → Byte → Option Instr
  | [], _ => none
  | (b, i) :: rest, op => if b = op then some i else tableRow rest op

/-- A primary byte that is no group byte: its row, or the fallback (30_encoding.md R55, R58). -/
def decodePrimary (op : Byte) : Instr := (tableRow primaryTable op).getD (.nopFallback op)

/-- Group 0xFE with a secondary byte (30_encoding.md R59, R61). -/
def decodeGroupFe (ss : Byte) : Instr := (tableRow groupFeTable ss).getD (.invalidSecondaryFe ss)

/-- Group 0xFC with a secondary byte (30_encoding.md R60, R61). -/
def decodeGroupFc (ss : Byte) : Instr := (tableRow groupFcTable ss).getD (.invalidSecondaryFc ss)

/-- One decode of the bytes that stand from a position to the end of the buffer: the row and the number of bytes its
encoding takes (30_encoding.md R50, R53). A list that ends after a group byte is the truncated row (R62). -/
def decode : List Byte → Except DecodeReject (Instr × Nat)
  | [] => .error .noBytes
  | op :: rest =>
    if op = 0xFE#8 then
      match rest with
      | [] => .ok (.truncatedFe, 1)
      | ss :: _ => .ok (decodeGroupFe ss, 2)
    else if op = 0xFC#8 then
      match rest with
      | [] => .ok (.truncatedFc, 1)
      | ss :: _ => .ok (decodeGroupFc ss, 2)
    else .ok (decodePrimary op, 1)

/-- The Instruction the Decoder appends to `seq` for a row; a fault row appends nothing (30_encoding.md R53 to R62).
The fallback and 0x90 append the same Instruction (41_nop.md R78). -/
def Instr.variant? : Instr → Option Variant
  | .nop => some .noop
  | .incAx => some (.increment (.cell .ax))
  | .incCx => some (.increment (.cell .cx))
  | .incDx => some (.increment (.cell .dx))
  | .incBx => some (.increment (.cell .bx))
  | .incSi => some (.increment (.cell .si))
  | .incDi => some (.increment (.cell .di))
  | .decAx => some (.decrement (.cell .ax))
  | .decCx => some (.decrement (.cell .cx))
  | .decDx => some (.decrement (.cell .dx))
  | .decBx => some (.decrement (.cell .bx))
  | .incAl => some (.increment (.view .al))
  | .incCl => some (.increment (.view .cl))
  | .incDl => some (.increment (.view .dl))
  | .incBl => some (.increment (.view .bl))
  | .decAl => some (.decrement (.view .al))
  | .decCl => some (.decrement (.view .cl))
  | .decDl => some (.decrement (.view .dl))
  | .decBl => some (.decrement (.view .bl))
  | .decAh => some (.decrement (.view .ah))
  | .decCh => some (.decrement (.view .ch))
  | .decDh => some (.decrement (.view .dh))
  | .decBh => some (.decrement (.view .bh))
  | .incAh => some (.increment (.view .ah))
  | .incCh => some (.increment (.view .ch))
  | .incDh => some (.increment (.view .dh))
  | .incBh => some (.increment (.view .bh))
  | .invalidSecondaryFe _ => none
  | .invalidSecondaryFc _ => none
  | .truncatedFe => none
  | .truncatedFc => none
  | .nopFallback _ => some .noop

/-- The Instruction the bytes decode to, where they decode to one that is appended. -/
def decodedVariant (bytes : List Byte) : Option Variant :=
  match decode bytes with
  | .ok (i, _) => i.variant?
  | .error _ => none

/-- The row whose meaning `Increment(r)` has, where `r` has an Increment encoding (30_encoding.md R56, R59, R60). -/
def incrementRow : Reg → Option Instr
  | .cell .ax => some .incAx
  | .cell .cx => some .incCx
  | .cell .dx => some .incDx
  | .cell .bx => some .incBx
  | .cell .si => some .incSi
  | .cell .di => some .incDi
  | .cell .cs | .cell .ds | .cell .es | .cell .ss | .cell .bp | .cell .sp | .cell .ip => none
  | .view .al => some .incAl
  | .view .ah => some .incAh
  | .view .bl => some .incBl
  | .view .bh => some .incBh
  | .view .cl => some .incCl
  | .view .ch => some .incCh
  | .view .dl => some .incDl
  | .view .dh => some .incDh

/-- The row whose meaning `Decrement(r)` has, where `r` has a Decrement encoding (30_encoding.md R57, R59). -/
def decrementRow : Reg → Option Instr
  | .cell .ax => some .decAx
  | .cell .cx => some .decCx
  | .cell .dx => some .decDx
  | .cell .bx => some .decBx
  | .cell .si | .cell .di | .cell .cs | .cell .ds | .cell .es | .cell .ss | .cell .bp | .cell .sp | .cell .ip => none
  | .view .al => some .decAl
  | .view .ah => some .decAh
  | .view .bl => some .decBl
  | .view .bh => some .decBh
  | .view .cl => some .decCl
  | .view .ch => some .decCh
  | .view .dl => some .decDl
  | .view .dh => some .decDh

/-- The bytes of a row, in buffer order, from the assembly table of 30_encoding.md section 5 and the table's fault
rows. -/
def encode : Instr → List Byte
  | .nop => [0x90#8]
  | .incAx => [0x40#8]
  | .incCx => [0x41#8]
  | .incDx => [0x42#8]
  | .incBx => [0x43#8]
  | .incSi => [0x46#8]
  | .incDi => [0x47#8]
  | .decAx => [0x48#8]
  | .decCx => [0x49#8]
  | .decDx => [0x4A#8]
  | .decBx => [0x4B#8]
  | .incAl => [0xFE#8, 0xC0#8]
  | .incCl => [0xFE#8, 0xC1#8]
  | .incDl => [0xFE#8, 0xC2#8]
  | .incBl => [0xFE#8, 0xC3#8]
  | .decAl => [0xFE#8, 0xC8#8]
  | .decCl => [0xFE#8, 0xC9#8]
  | .decDl => [0xFE#8, 0xCA#8]
  | .decBl => [0xFE#8, 0xCB#8]
  | .decAh => [0xFE#8, 0xCC#8]
  | .decCh => [0xFE#8, 0xCD#8]
  | .decDh => [0xFE#8, 0xCE#8]
  | .decBh => [0xFE#8, 0xCF#8]
  | .incAh => [0xFC#8, 0xC4#8]
  | .incCh => [0xFC#8, 0xC5#8]
  | .incDh => [0xFC#8, 0xC6#8]
  | .incBh => [0xFC#8, 0xC7#8]
  | .invalidSecondaryFe ss => [0xFE#8, ss]
  | .invalidSecondaryFc ss => [0xFC#8, ss]
  | .truncatedFe => [0xFE#8]
  | .truncatedFc => [0xFC#8]
  | .nopFallback op => [op]

/-- How many bytes of the buffer an emitted Instruction came from: two for an 8-bit Increment or Decrement, one
otherwise (30_encoding.md R50, R55, R59, R60). The declared variants have no encoding and count zero. -/
def Variant.byteLength : Variant → Nat
  | .noop => 1
  | .increment (.cell _) => 1
  | .increment (.view _) => 2
  | .decrement (.cell _) => 1
  | .decrement (.view _) => 2
  | .stop | .moveRegReg _ _ _ | .moveRegMem _ _ _ | .moveImmReg16 _ _ | .moveImmReg8 _ _ | .moveImmMem _ _ => 0

/-- The `k` bytes of a table word. The table numbers a row's bytes as ONE number with the first byte of the buffer
most significant (the `note` of every row of opcode_table.json), so 0xFEC0 is 0xFE then 0xC0. DEDUCED, log entry 8. -/
def tableBytes : Nat → Nat → List Byte
  | 0, _ => []
  | k + 1, w => BitVec.ofNat 8 (w / 256 ^ k) :: tableBytes k w

/-- The row the Decoder reads from a table word of `nbits` bits standing alone in the buffer; none where those bytes
are not exactly one instruction. -/
def decodeTableWord (nbits w : Nat) : Option Instr :=
  match decode (tableBytes (nbits / 8) w) with
  | .ok (i, len) => if len = nbits / 8 then some i else none
  | .error _ => none

end Sys2Proof
end

