-- ==== Sys2Proof/Machine/State.lean ====
section
/-! DEFINITION. Everything the spec gives the machine (10_state.md R34), as plain data, the reasons a step can stop,
and the state after reset. -/

namespace Sys2Proof.Machine

/-- The Register File's thirteen cells (10_state.md R13). -/
structure Regs where
  ax : Word
  bx : Word
  cx : Word
  dx : Word
  cs : Word
  ds : Word
  es : Word
  ss : Word
  si : Word
  di : Word
  bp : Word
  sp : Word
  ip : Word
  deriving DecidableEq, Repr

/-- Every cell zero (10_state.md R19). -/
def Regs.zero : Regs := ⟨0, 0, 0, 0, 0, 0, 0, 0, 0, 0, 0, 0, 0⟩

/-- The nine flag names (10_state.md R20). -/
inductive Flag where
  | carry | auxiliary | parity | zero | sign | overflow | trap | interrupt | direction
  deriving DecidableEq, Repr

/-- The Flag Set: nine independent bits with no packed word (10_state.md R20, R23). -/
structure Flags where
  carry : Bool
  auxiliary : Bool
  parity : Bool
  zero : Bool
  sign : Bool
  overflow : Bool
  trap : Bool
  interrupt : Bool
  direction : Bool
  deriving DecidableEq, Repr

/-- Every flag false (10_state.md R21). -/
def Flags.clear : Flags := ⟨false, false, false, false, false, false, false, false, false⟩

/-- `PHASE` (10_state.md R30). -/
inductive Phase where
  | idle | decoding | decoded | executing | executed | faulted
  deriving DecidableEq, Repr

/-- `FAULT_CODE` (10_state.md R33). -/
inductive FaultCode where
  | none | invalidSecondary | truncated
  deriving DecidableEq, Repr

/-- The fault record `FAULT_CODE`, `FAULT_POS`, `FAULT_BYTE` (10_state.md R33). -/
structure FaultRecord where
  code : FaultCode
  pos : Nat
  byte : Byte
  deriving DecidableEq, Repr

/-- The record before any fault: NONE, 0, 0x00 (10_state.md R33). -/
def FaultRecord.clear : FaultRecord := ⟨.none, 0, 0#8⟩

/-- What the host can ask for: the three commands of 00_scope.md R7, and the assembler path, which is no command of
the CORE and which a model refuses by name (R12). -/
inductive Command where
  | load (bytes : List Byte)
  | decode
  | execute
  | assemble (source : List Byte)
  deriving DecidableEq, Repr

/-- The program buffer as address and byte pairs, addresses strictly rising. An unlisted address reads as no value
(20_memory.md R39), so no entry can equal what an unlisted address reads as (log entry 6). -/
abbrev Memory := List Host.Cell

/-- The machine's state: 10_state.md R34, and the host's pending commands. -/
structure State where
  /-- The Register File, R13. -/
  regs : Regs
  /-- The Flag Set, R20. -/
  flags : Flags
  /-- `BUF`, R26. -/
  buf : Memory
  /-- `N`, R26. -/
  n : Nat
  /-- `dp`, R27: not the IP cell (R28). -/
  dp : Nat
  /-- `seq`, R29. -/
  seq : List Variant
  /-- `PHASE`, R30. -/
  phase : Phase
  /-- `xp`, R32. -/
  xp : Nat
  /-- The fault record, R33. -/
  record : FaultRecord
  /-- The model's own: the commands the host has still to issue, oldest first (DESIGN CHOICE, log entry 2). -/
  commands : List Command
  deriving DecidableEq, Repr

/-- Why the machine stops. A decode fault is NOT one of these: it is a next state with `PHASE = Faulted`
(60_exceptions.md R112). No state that a run reaches raises either of these. -/
inductive Fault where
  /-- Raised by a decode step that needs a byte at an offset the buffer does not have, where `MemRead` is undefined
  (20_memory.md R39). Safe: the machine stops. Log entry 6. -/
  | readOutsideBuffer
  /-- Raised by an execute step with `xp` not below `len(seq)`, where R68 enables none (40_execute_engine.md).
  Safe: the machine stops. Log entry 7. -/
  | executePastSequence
  deriving DecidableEq, Repr

/-- What the model gives no step. -/
inductive Refusal where
  /-- An instruction without a meaning yet; no arm of `exec` answers it. Safe. -/
  | notModelled (mnemonic : String)
  /-- Raised by LOAD of more than `MAX_BUF_LEN` bytes: "it has no step" (70_reset_and_hazards.md R130). Safe:
  no claim is made of such a program (D4). Log entry 5. -/
  | loadTooLong
  /-- Raised by a command given while `PHASE` is Decoding or Executing: "no move" (10_state.md R31,
  70_reset_and_hazards.md R139). `step` never asks for it. Safe. Log entry 5. -/
  | commandDuringPass
  /-- Raised by the assembler path, which is not part of the CORE (00_scope.md R12). Safe. Log entry 5. -/
  | assemblerNotInCore
  deriving DecidableEq, Repr

/-- The machine after reset: every field as LOAD sets it (70_reset_and_hazards.md R129), with the buffer empty, since
BUF's reset value is the bytes LOAD supplies and none have been supplied (DESIGN CHOICE, log entry 1). -/
def State.reset : State where
  regs := .zero
  flags := .clear
  buf := []
  n := 0
  dp := 0
  seq := []
  phase := .idle
  xp := 0
  record := .clear
  commands := []

end Sys2Proof.Machine
end

