-- ==== Sys2Proof/Machine/Flags.lean ====
section
/-! DEFINITION. The Flag Set's accessors. There is no flag computation: no instruction writes a flag and no rule reads
one (10_state.md R22, 90_conflicts.md C3); only LOAD writes the flags, to false (70_reset_and_hazards.md R129). -/

namespace Sys2Proof.Machine

/-- `F[f]` (00_scope.md section 4). -/
def Flags.get (g : Flags) (f : Flag) : Bool :=
  match f with
  | .carry => g.carry
  | .auxiliary => g.auxiliary
  | .parity => g.parity
  | .zero => g.zero
  | .sign => g.sign
  | .overflow => g.overflow
  | .trap => g.trap
  | .interrupt => g.interrupt
  | .direction => g.direction

/-- `F[f] <- b` (00_scope.md section 4). -/
def Flags.set (g : Flags) (f : Flag) (b : Bool) : Flags :=
  match f with
  | .carry => { g with carry := b }
  | .auxiliary => { g with auxiliary := b }
  | .parity => { g with parity := b }
  | .zero => { g with zero := b }
  | .sign => { g with sign := b }
  | .overflow => { g with overflow := b }
  | .trap => { g with trap := b }
  | .interrupt => { g with interrupt := b }
  | .direction => { g with direction := b }

/-- The nine flags in the order of 10_state.md R20. -/
def allFlags : List Flag :=
  [.carry, .auxiliary, .parity, .zero, .sign, .overflow, .trap, .interrupt, .direction]

/-- LOAD's `for f in {Carry ... Direction}: F[f] <- 0` (70_reset_and_hazards.md R129). -/
def Flags.clearAll (g : Flags) : Flags := allFlags.foldl (fun h f => h.set f false) g

end Sys2Proof.Machine
end

