-- ==== Sys2Proof/Machine/Operands.lean ====
section
/-! DEFINITION. The operand forms: reading and writing the 21 register views (10_state.md R14 to R18). -/

namespace Sys2Proof

open Machine

/-- Bits 7:0 of a cell. -/
def lowByte (w : Word) : Byte := w.extractLsb' 0 8

/-- Bits 15:8 of a cell. -/
def highByte (w : Word) : Byte := w.extractLsb' 8 8

/-- `hi8 : lo8`, the first in the more significant position (00_scope.md section 4). -/
def joinBytes (hi lo : Byte) : Word := hi ++ lo

/-- The content of a cell. -/
def Cell.get : Cell → Regs → Word
  | .ax, f => f.ax
  | .bx, f => f.bx
  | .cx, f => f.cx
  | .dx, f => f.dx
  | .cs, f => f.cs
  | .ds, f => f.ds
  | .es, f => f.es
  | .ss, f => f.ss
  | .si, f => f.si
  | .di, f => f.di
  | .bp, f => f.bp
  | .sp, f => f.sp
  | .ip, f => f.ip

/-- The Register File with one cell replaced. -/
def Cell.set : Cell → Word → Regs → Regs
  | .ax, w, f => { f with ax := w }
  | .bx, w, f => { f with bx := w }
  | .cx, w, f => { f with cx := w }
  | .dx, w, f => { f with dx := w }
  | .cs, w, f => { f with cs := w }
  | .ds, w, f => { f with ds := w }
  | .es, w, f => { f with es := w }
  | .ss, w, f => { f with ss := w }
  | .si, w, f => { f with si := w }
  | .di, w, f => { f with di := w }
  | .bp, w, f => { f with bp := w }
  | .sp, w, f => { f with sp := w }
  | .ip, w, f => { f with ip := w }

/-- The cell a view aliases (10_state.md R14). -/
def View.parent : View → Cell
  | .al | .ah => .ax
  | .bl | .bh => .bx
  | .cl | .ch => .cx
  | .dl | .dh => .dx

/-- Whether a view is the high byte of its parent (10_state.md R14). -/
def View.isHigh : View → Bool
  | .ah | .bh | .ch | .dh => true
  | .al | .bl | .cl | .dl => false

/-- The byte of its parent that a view names (10_state.md R16). -/
def View.get (v : View) (f : Regs) : Byte :=
  if v.isHigh then highByte (v.parent.get f) else lowByte (v.parent.get f)

/-- The Register File with one half of a view's parent replaced and the other kept (10_state.md R17). -/
def View.set (v : View) (b : Byte) (f : Regs) : Regs :=
  if v.isHigh then v.parent.set (joinBytes b (lowByte (v.parent.get f))) f
  else v.parent.set (joinBytes (highByte (v.parent.get f)) b) f

/-- The width of a register view (40_execute_engine.md R72). -/
def Reg.width : Reg → Nat
  | .cell _ => 16
  | .view _ => 8

/-- `x[r]`, as the unsigned number of the view's width (10_state.md R16). -/
def Reg.read : Reg → Regs → Nat
  | .cell c, f => (c.get f).toNat
  | .view v, f => (v.get f).toNat

/-- `x[r] <- v`, the value reduced modulo 2 to the view's width, silently (10_state.md R17, R18). -/
def Reg.write : Reg → Nat → Regs → Regs
  | .cell c, x, f => c.set (BitVec.ofNat 16 x) f
  | .view v, x, f => v.set (BitVec.ofNat 8 x) f

end Sys2Proof
end

