-- ==== Sys2Proof/Machine/Ops.lean ====
section
/-! DEFINITION. The shared operations: the program buffer, the arithmetic primitives, taking a decode fault, and the
controller's own writes. -/

namespace Sys2Proof.Machine

/-! ### The program buffer (20_memory.md) -/

/-- What an unlisted address reads as: no value (20_memory.md R39, log entry 6). -/
def unlistedByte : Option Byte := none

/-- The byte listed at an address. -/
def Memory.read : Memory → Nat → Option Byte
  | [], _ => unlistedByte
  | (a, b) :: rest, addr => if a = addr then some b else Memory.read rest addr

/-- The bytes as cells at rising addresses from `a`. -/
def Memory.ofBytesFrom : Nat → List Byte → Memory
  | _, [] => []
  | a, b :: bs => (a, b) :: Memory.ofBytesFrom (a + 1) bs

/-- The buffer LOAD makes of its bytes: offsets 0 to `N - 1` (10_state.md R26). -/
def Memory.ofBytes (bytes : List Byte) : Memory := Memory.ofBytesFrom 0 bytes

/-- The buffer's bytes in rising order of address. -/
def Memory.bytes (m : Memory) : List Byte := m.map Prod.snd

/-- The canonical form: addresses strictly rising. No entry can equal what an unlisted address reads as, since that
is no value. -/
def Memory.wf : Memory → Bool
  | [] => true
  | [_] => true
  | (a, _) :: (a', b') :: rest => decide (a < a') && Memory.wf ((a', b') :: rest)

/-- `MemRead(addr, 1)`: the byte `BUF[addr]`, defined only for `addr < N` (20_memory.md R39). -/
def memRead (s : State) (addr : Nat) : Option Byte :=
  if addr < s.n then Memory.read s.buf addr else unlistedByte

/-- The bytes a decode step at `dp` reads: the opcode byte, and the secondary byte after a group byte where there is
one (30_encoding.md R53). Nothing else is read, and nothing at or past `N` (R62). -/
def fetch (s : State) : Option (List Byte) :=
  match memRead s s.dp with
  | none => none
  | some op =>
    if isGroupByte op then
      if s.dp + 1 = s.n then some [op]
      else
        match memRead s (s.dp + 1) with
        | none => none
        | some ss => some [op, ss]
    else some [op]

/-! ### The arithmetic primitives (40_execute_engine.md R72 to R74) -/

/-- `INC16(r): x[r] <- (x[r] + 1) mod 2^16` (R73). -/
def inc16 (c : Cell) (f : Regs) : Regs := (Reg.cell c).write (((Reg.cell c).read f + 1) % 2 ^ 16) f

/-- `INC8(r): x[r] <- (x[r] + 1) mod 2^8` (R73). -/
def inc8 (v : View) (f : Regs) : Regs := (Reg.view v).write (((Reg.view v).read f + 1) % 2 ^ 8) f

/-- `DEC16(r): x[r] <- (x[r] - 1) mod 2^16`, on integers, the remainder non-negative (R74, 00_scope.md section 4). -/
def dec16 (c : Cell) (f : Regs) : Regs :=
  (Reg.cell c).write ((((Reg.cell c).read f : Int) - 1) % 2 ^ 16).toNat f

/-- `DEC8(r): x[r] <- (x[r] - 1) mod 2^8`, on integers, the remainder non-negative (R74, 00_scope.md section 4). -/
def dec8 (v : View) (f : Regs) : Regs :=
  (Reg.view v).write ((((Reg.view v).read f : Int) - 1) % 2 ^ 8).toNat f

/-- `Increment(r)` on the Register File: `INC16` or `INC8` by the width of `r` (R70, R72). -/
def incrementReg : Reg → Regs → Regs
  | .cell c, f => inc16 c f
  | .view v, f => inc8 v f

/-- `Decrement(r)` on the Register File: `DEC16` or `DEC8` by the width of `r` (R70, R72). -/
def decrementReg : Reg → Regs → Regs
  | .cell c, f => dec16 c f
  | .view v, f => dec8 v f

/-! ### Writes to the state -/

/-- The state with another Register File. -/
def State.setRegs (s : State) (f : Regs) : State := { s with regs := f }

/-- The state with another phase. -/
def State.setPhase (s : State) (p : Phase) : State := { s with phase := p }

/-- The state with the host's command list replaced. -/
def State.setCommands (s : State) (cs : List Command) : State := { s with commands := cs }

/-- Taking a decode fault: `raise DecodeFault(code, pos, byte)`, "with these writes and no others"
(60_exceptions.md R112). There is no return from a fault beside it: only LOAD leaves Faulted (R118). -/
def State.raiseDecodeFault (s : State) (code : FaultCode) (pos : Nat) (byte : Byte) : State :=
  { s with record := ⟨code, pos, byte⟩, dp := pos + 1, phase := .faulted }

/-- The end of a decode step that decoded an Instruction of `len` bytes: the pointer moves past it, the entry is
appended, and the pass ends when the pointer reaches `N` (30_encoding.md R51, R53). -/
def State.appendDecoded (s : State) (v : Variant) (len : Nat) : State :=
  { s with
    dp := s.dp + len
    seq := s.seq ++ [v]
    phase := if s.dp + len = s.n then .decoded else s.phase }

/-- The end of an execute step: `xp` moves on and the pass ends at the sequence's end (40_execute_engine.md R68). -/
def State.advanceExecute (s : State) : State :=
  { s with
    xp := s.xp + 1
    phase := if s.xp + 1 = s.seq.length then .executed else s.phase }

/-- LOAD's writes: every piece of the CORE's state to its reset value (70_reset_and_hazards.md R129). The host's
pending commands are not the CORE's and stay (log entry 2). -/
def State.loadBytes (s : State) (bytes : List Byte) : State where
  regs := .zero
  flags := s.flags.clearAll
  buf := Memory.ofBytes bytes
  n := bytes.length
  dp := 0
  seq := []
  phase := .idle
  xp := 0
  record := .clear
  commands := s.commands

/-- `Increment(r)` on the state: a register write and nothing else (40_execute_engine.md R71, R73). -/
def State.increment (s : State) (r : Reg) : State := s.setRegs (incrementReg r s.regs)

/-- `Decrement(r)` on the state: a register write and nothing else (40_execute_engine.md R71, R74). -/
def State.decrement (s : State) (r : Reg) : State := s.setRegs (decrementReg r s.regs)

/-- The number the spec gives a fault code (10_state.md R33, 60_exceptions.md R111). -/
def FaultCode.number : FaultCode → Nat
  | .none => 0
  | .invalidSecondary => 1
  | .truncated => 2

end Sys2Proof.Machine
end

