-- ==== Sys2Proof/Machine/Commands.lean ====
section
/-! DEFINITION. The host's commands (00_scope.md section 5) and the acceptance table of 10_state.md R31. -/

namespace Sys2Proof.Machine

/-- `LOAD(bytes)`, the reset of the CORE (70_reset_and_hazards.md R129); refused where the bytes are too many (R130). -/
def cmdLoad (bytes : List Byte) (s : State) : Host.Outcome State Fault Refusal :=
  if bytes.length ≤ Config.maxBufLen then .next (s.loadBytes bytes) else .refused .loadTooLong

/-- `DECODE` where it starts: the pass is over at once on an empty buffer (30_encoding.md R52). -/
def startDecode (s : State) : State := s.setPhase (if s.n = 0 then .decoded else .decoding)

/-- `EXECUTE` where it starts: the pass is over at once on an empty sequence; otherwise `xp = 0`, which it already is
(40_execute_engine.md R67, 10_state.md R32). -/
def startExecute (s : State) : State := s.setPhase (if s.seq.length = 0 then .executed else .executing)

/-- `DECODE` by phase (10_state.md R31). -/
def cmdDecode (s : State) : Host.Outcome State Fault Refusal :=
  match s.phase with
  | .idle => .next (startDecode s)
  | .decoded | .executed | .faulted => .next s
  | .decoding | .executing => .refused .commandDuringPass

/-- `EXECUTE` by phase (10_state.md R31). -/
def cmdExecute (s : State) : Host.Outcome State Fault Refusal :=
  match s.phase with
  | .decoded => .next (startExecute s)
  | .idle | .executed | .faulted => .next s
  | .decoding | .executing => .refused .commandDuringPass

/-- A command given in a phase: "start", "no effect" or "no move" (10_state.md R31). The assembler path has no step in
any phase (00_scope.md R12). -/
def hostCommand (c : Command) (s : State) : Host.Outcome State Fault Refusal :=
  match c with
  | .load bytes =>
    match s.phase with
    | .idle | .decoded | .executed | .faulted => cmdLoad bytes s
    | .decoding | .executing => .refused .commandDuringPass
  | .decode => cmdDecode s
  | .execute => cmdExecute s
  | .assemble _ => .refused .assemblerNotInCore

/-- What happens in a quiescent phase: the host's next command, or, while it issues none, the state holds
(60_exceptions.md R128, log entry 2). -/
def hostTurn (s : State) : Host.Outcome State Fault Refusal :=
  match s.commands with
  | [] => .next s
  | c :: cs => hostCommand c (s.setCommands cs)

end Sys2Proof.Machine
end

