-- ==== Sys2Proof/Machine/Declared.lean ====
section
/-! DEFINITION. Apply of the entries that no byte sequence decodes to: the declared variants of
44_declared_unencoded.md, and Increment or Decrement of a register with no such encoding, to which
40_execute_engine.md R70 still gives INC and DEC (log entry 12). No row of the opcode table reaches them. -/

namespace Sys2Proof.Machine

/-- `Stop`: no effect; it does not end the pass (R105). -/
def applyStop (s : State) : Host.Outcome State Fault Refusal := .next s

/-- `MoveRegReg`: no register is written (R106). -/
def applyMoveRegReg (_d : Direction) (_r1 _r2 : Reg) (s : State) : Host.Outcome State Fault Refusal := .next s

/-- `MoveRegMem`: no register and no memory is accessed (R107). -/
def applyMoveRegMem (_d : Direction) (_r : Reg) (_a : Address) (s : State) : Host.Outcome State Fault Refusal :=
  .next s

/-- `MoveImmReg16`: no register is written (R108). -/
def applyMoveImmReg16 (_v : Immediate) (_r : Reg) (s : State) : Host.Outcome State Fault Refusal := .next s

/-- `MoveImmReg8`: no register is written (R109). -/
def applyMoveImmReg8 (_v : Immediate) (_r : Reg) (s : State) : Host.Outcome State Fault Refusal := .next s

/-- `MoveImmMem`: no memory is written (R110). -/
def applyMoveImmMem (_v : Immediate) (_a : Address) (s : State) : Host.Outcome State Fault Refusal := .next s

/-- `Increment(r)` for an `r` with no Increment encoding (40_execute_engine.md R70). -/
def applyUnencodedIncrement (r : Reg) (s : State) : Host.Outcome State Fault Refusal := .next (s.increment r)

/-- `Decrement(r)` for an `r` with no Decrement encoding (40_execute_engine.md R70). -/
def applyUnencodedDecrement (r : Reg) (s : State) : Host.Outcome State Fault Refusal := .next (s.decrement r)

end Sys2Proof.Machine
end

