-- ==== Sys2Proof/Machine/DecodeFaults.lean ====
section
/-! DEFINITION. The opcode table's decode-fault rows. Each takes the fault of 60_exceptions.md R112 at `dp`, the offset
of its group byte, inside the decode step that reads it (log entry 9). -/

namespace Sys2Proof.Machine

/-- Group 0xFE with an unlisted secondary byte (30_encoding.md R61, 60_exceptions.md R114). -/
def execInvalidSecondaryFe (ss : Byte) (s : State) : Host.Outcome State Fault Refusal :=
  .next (s.raiseDecodeFault .invalidSecondary s.dp ss)

/-- Group 0xFC with an unlisted secondary byte (30_encoding.md R61, 60_exceptions.md R114). -/
def execInvalidSecondaryFc (ss : Byte) (s : State) : Host.Outcome State Fault Refusal :=
  .next (s.raiseDecodeFault .invalidSecondary s.dp ss)

/-- Group 0xFE at the last offset of the buffer (30_encoding.md R62, 60_exceptions.md R113). -/
def execTruncatedFe (s : State) : Host.Outcome State Fault Refusal :=
  .next (s.raiseDecodeFault .truncated s.dp 0#8)

/-- Group 0xFC at the last offset of the buffer (30_encoding.md R62, 60_exceptions.md R113). -/
def execTruncatedFc (s : State) : Host.Outcome State Fault Refusal :=
  .next (s.raiseDecodeFault .truncated s.dp 0#8)

end Sys2Proof.Machine
end

