-- ==== Sys2Proof/Machine/IncDecR16.lean ====
section
/-! DEFINITION. Increment and Decrement of 16-bit registers (42_incdec_r16.md). Each meaning is the instruction's own
effect; the execute step adds the advance of `xp` (log entry 10). No flag is written (10_state.md R22) and nothing can
fault (40_execute_engine.md R75). -/

namespace Sys2Proof.Machine

/-- `INC AX` (R79). -/
def execIncAx (s : State) : Host.Outcome State Fault Refusal := .next (s.increment (.cell .ax))

/-- `INC CX` (R80). -/
def execIncCx (s : State) : Host.Outcome State Fault Refusal := .next (s.increment (.cell .cx))

/-- `INC DX` (R81). -/
def execIncDx (s : State) : Host.Outcome State Fault Refusal := .next (s.increment (.cell .dx))

/-- `INC BX` (R82). -/
def execIncBx (s : State) : Host.Outcome State Fault Refusal := .next (s.increment (.cell .bx))

/-- `INC SI` (R83). -/
def execIncSi (s : State) : Host.Outcome State Fault Refusal := .next (s.increment (.cell .si))

/-- `INC DI` (R84). -/
def execIncDi (s : State) : Host.Outcome State Fault Refusal := .next (s.increment (.cell .di))

/-- `DEC AX` (R85). -/
def execDecAx (s : State) : Host.Outcome State Fault Refusal := .next (s.decrement (.cell .ax))

/-- `DEC CX` (R86). -/
def execDecCx (s : State) : Host.Outcome State Fault Refusal := .next (s.decrement (.cell .cx))

/-- `DEC DX` (R87). -/
def execDecDx (s : State) : Host.Outcome State Fault Refusal := .next (s.decrement (.cell .dx))

/-- `DEC BX` (R88). -/
def execDecBx (s : State) : Host.Outcome State Fault Refusal := .next (s.decrement (.cell .bx))

end Sys2Proof.Machine
end

