-- ==== Sys2Proof/Machine/IncDecR8.lean ====
section
/-! DEFINITION. Increment and Decrement of 8-bit sub-registers (43_incdec_r8.md). The write of a view keeps the other
byte of its parent (10_state.md R17). The execute step adds the advance of `xp` (log entry 10). -/

namespace Sys2Proof.Machine

/-- `INC AL` (R89). -/
def execIncAl (s : State) : Host.Outcome State Fault Refusal := .next (s.increment (.view .al))

/-- `INC CL` (R90). -/
def execIncCl (s : State) : Host.Outcome State Fault Refusal := .next (s.increment (.view .cl))

/-- `INC DL` (R91). -/
def execIncDl (s : State) : Host.Outcome State Fault Refusal := .next (s.increment (.view .dl))

/-- `INC BL` (R92). -/
def execIncBl (s : State) : Host.Outcome State Fault Refusal := .next (s.increment (.view .bl))

/-- `INC AH` (R93). -/
def execIncAh (s : State) : Host.Outcome State Fault Refusal := .next (s.increment (.view .ah))

/-- `INC CH` (R94). -/
def execIncCh (s : State) : Host.Outcome State Fault Refusal := .next (s.increment (.view .ch))

/-- `INC DH` (R95). -/
def execIncDh (s : State) : Host.Outcome State Fault Refusal := .next (s.increment (.view .dh))

/-- `INC BH` (R96). -/
def execIncBh (s : State) : Host.Outcome State Fault Refusal := .next (s.increment (.view .bh))

/-- `DEC AL` (R97). -/
def execDecAl (s : State) : Host.Outcome State Fault Refusal := .next (s.decrement (.view .al))

/-- `DEC CL` (R98). -/
def execDecCl (s : State) : Host.Outcome State Fault Refusal := .next (s.decrement (.view .cl))

/-- `DEC DL` (R99). -/
def execDecDl (s : State) : Host.Outcome State Fault Refusal := .next (s.decrement (.view .dl))

/-- `DEC BL` (R100). -/
def execDecBl (s : State) : Host.Outcome State Fault Refusal := .next (s.decrement (.view .bl))

/-- `DEC AH` (R101). -/
def execDecAh (s : State) : Host.Outcome State Fault Refusal := .next (s.decrement (.view .ah))

/-- `DEC CH` (R102). -/
def execDecCh (s : State) : Host.Outcome State Fault Refusal := .next (s.decrement (.view .ch))

/-- `DEC DH` (R103). -/
def execDecDh (s : State) : Host.Outcome State Fault Refusal := .next (s.decrement (.view .dh))

/-- `DEC BH` (R104). -/
def execDecBh (s : State) : Host.Outcome State Fault Refusal := .next (s.decrement (.view .bh))

end Sys2Proof.Machine
end

