-- ==== Sys2Proof/Machine/Noop.lean ====
section
/-! DEFINITION. Noop (41_nop.md): `Apply(Noop) = skip`. The execute step still advances `xp` (log entry 10). -/

namespace Sys2Proof.Machine

/-- `NOP`, 0x90 (R77). -/
def execNop (s : State) : Host.Outcome State Fault Refusal := .next s

/-- Fallback `NOP`, the same effect as 0x90; the byte is not kept (R78). -/
def execNopFallback (_op : Byte) (s : State) : Host.Outcome State Fault Refusal := .next s

end Sys2Proof.Machine
end

