-- ==== Sys2Proof/Machine/Dispatch.lean ====
section
/-! DEFINITION. The meaning of each row of the opcode table, one arm a row. -/

namespace Sys2Proof.Machine

def exec (i : Instr) (s : State) : Host.Outcome State Fault Refusal :=
  match i with
  | .nop => Sys2Proof.Machine.execNop s
  | .incAx => Sys2Proof.Machine.execIncAx s
  | .incCx => Sys2Proof.Machine.execIncCx s
  | .incDx => Sys2Proof.Machine.execIncDx s
  | .incBx => Sys2Proof.Machine.execIncBx s
  | .incSi => Sys2Proof.Machine.execIncSi s
  | .incDi => Sys2Proof.Machine.execIncDi s
  | .decAx => Sys2Proof.Machine.execDecAx s
  | .decCx => Sys2Proof.Machine.execDecCx s
  | .decDx => Sys2Proof.Machine.execDecDx s
  | .decBx => Sys2Proof.Machine.execDecBx s
  | .incAl => Sys2Proof.Machine.execIncAl s
  | .incCl => Sys2Proof.Machine.execIncCl s
  | .incDl => Sys2Proof.Machine.execIncDl s
  | .incBl => Sys2Proof.Machine.execIncBl s
  | .decAl => Sys2Proof.Machine.execDecAl s
  | .decCl => Sys2Proof.Machine.execDecCl s
  | .decDl => Sys2Proof.Machine.execDecDl s
  | .decBl => Sys2Proof.Machine.execDecBl s
  | .decAh => Sys2Proof.Machine.execDecAh s
  | .decCh => Sys2Proof.Machine.execDecCh s
  | .decDh => Sys2Proof.Machine.execDecDh s
  | .decBh => Sys2Proof.Machine.execDecBh s
  | .incAh => Sys2Proof.Machine.execIncAh s
  | .incCh => Sys2Proof.Machine.execIncCh s
  | .incDh => Sys2Proof.Machine.execIncDh s
  | .incBh => Sys2Proof.Machine.execIncBh s
  | .invalidSecondaryFe ss => Sys2Proof.Machine.execInvalidSecondaryFe ss s
  | .invalidSecondaryFc ss => Sys2Proof.Machine.execInvalidSecondaryFc ss s
  | .truncatedFe => Sys2Proof.Machine.execTruncatedFe s
  | .truncatedFc => Sys2Proof.Machine.execTruncatedFc s
  | .nopFallback op => Sys2Proof.Machine.execNopFallback op s

end Sys2Proof.Machine
end

