-- ==== Sys2Proof/Machine/Controller.lean ====
section
/-! DEFINITION. The decode-to-execute controller: the decode step and the execute step. -/

namespace Sys2Proof.Machine

/-- One decode step (30_encoding.md R53): read the instruction at `dp`, decode it, and append its entry, or, for a
fault row, run the row, which takes the decode fault. -/
def decodeStep (s : State) : Host.Outcome State Fault Refusal :=
  match fetch s with
  | none => .fault .readOutsideBuffer
  | some bytes =>
    match decode bytes with
    | .error .noBytes => .fault .readOutsideBuffer
    | .ok (i, len) =>
      match i.variant? with
      | some v => .next (s.appendDecoded v len)
      | none => exec i s

/-- `Apply(ins)`, total over the nine variants (40_execute_engine.md R70): an encoded entry runs its row's meaning. -/
def applyVariant (v : Variant) (s : State) : Host.Outcome State Fault Refusal :=
  match v with
  | .noop => exec .nop s
  | .increment r =>
    match incrementRow r with
    | some i => exec i s
    | none => applyUnencodedIncrement r s
  | .decrement r =>
    match decrementRow r with
    | some i => exec i s
    | none => applyUnencodedDecrement r s
  | .stop => applyStop s
  | .moveRegReg d r1 r2 => applyMoveRegReg d r1 r2 s
  | .moveRegMem d r a => applyMoveRegMem d r a s
  | .moveImmReg16 x r => applyMoveImmReg16 x r s
  | .moveImmReg8 x r => applyMoveImmReg8 x r s
  | .moveImmMem x a => applyMoveImmMem x a s

/-- What an outcome becomes when more is done to its next state. -/
def thenDo (o : Host.Outcome State Fault Refusal) (f : State → State) : Host.Outcome State Fault Refusal :=
  match o with
  | .next t => .next (f t)
  | .fault e => .fault e
  | .refused e => .refused e

/-- One execute step (40_execute_engine.md R68): apply `seq[xp]`, then move on. -/
def executeStep (s : State) : Host.Outcome State Fault Refusal :=
  match s.seq[s.xp]? with
  | none => .fault .executePastSequence
  | some v => thenDo (applyVariant v s) State.advanceExecute

/-- A state in which the buffer is exactly `bytes` and the very next step runs the instruction they are: an entry of
`seq` in the execute pass, or, for a fault row or for bytes that are not exactly one instruction, the decode step that
reads them. Log entry 3. -/
def State.placeBytes (s : State) (bytes : List Byte) : State :=
  match decode bytes with
  | .ok (i, len) =>
    match i.variant? with
    | some v =>
      if len = bytes.length then
        { s with buf := Memory.ofBytes bytes, n := bytes.length, dp := len, seq := [v], xp := 0, phase := .executing }
      else { s with buf := Memory.ofBytes bytes, n := bytes.length, dp := 0, seq := [], xp := 0, phase := .decoding }
    | none => { s with buf := Memory.ofBytes bytes, n := bytes.length, dp := 0, seq := [], xp := 0, phase := .decoding }
  | .error _ => { s with buf := Memory.ofBytes bytes, n := bytes.length, dp := 0, seq := [], xp := 0, phase := .decoding }

end Sys2Proof.Machine
end

