-- ==== Sys2Proof/Machine/Step.lean ====
section
/-! DEFINITION. One step of the machine. -/

namespace Sys2Proof.Machine

/-- One step: a decode step while Decoding, an execute step while Executing, and otherwise the host's turn. -/
def step (s : State) : Host.Outcome State Fault Refusal :=
  match s.phase with
  | .decoding => decodeStep s
  | .executing => executeStep s
  | .idle | .decoded | .executed | .faulted => hostTurn s

/-- The state with a table word placed so that the next step runs exactly it (log entries 3 and 8). -/
def State.withFetchWord (s : State) (nbits w : Nat) : State := s.placeBytes (tableBytes (nbits / 8) w)

end Sys2Proof.Machine
end

