-- ==== Sys2Proof/Machine/Outputs.lean ====
section
/-! DEFINITION. The read-only outputs the CORE offers the host at all times (00_scope.md R8). A read is no step and
changes nothing; `xp`, `BUF` and `N` are not outputs. -/

namespace Sys2Proof.Machine

/-- One output (00_scope.md R8). -/
inductive Port where
  | register (r : Reg)
  | flag (f : Flag)
  | decodePointer
  | phase
  | faultCode
  | faultPos
  | faultByte
  | seqLength
  | seqEntry (k : Nat)
  deriving DecidableEq, Repr

/-- What an output shows: an entry of `seq` is read as its variant and operands, never as bits (10_state.md R25), and a
flag on its own (R23). -/
inductive PortValue where
  | number (x : Nat)
  | bit (b : Bool)
  | phase (p : Phase)
  | code (c : FaultCode)
  | entry (v : Option Variant)
  deriving DecidableEq, Repr

/-- The host's read of an output. -/
def hostRead (s : State) : Port → PortValue
  | .register r => .number (r.read s.regs)
  | .flag f => .bit (s.flags.get f)
  | .decodePointer => .number s.dp
  | .phase => .phase s.phase
  | .faultCode => .code s.record.code
  | .faultPos => .number s.record.pos
  | .faultByte => .number s.record.byte.toNat
  | .seqLength => .number s.seq.length
  | .seqEntry k => .entry s.seq[k]?

end Sys2Proof.Machine
end

