-- ==== Sys2Proof/Safety.lean ====
section
/-! DEFINITION. The words that claims about the machine use: many steps, what a decode pass and an execute pass should
come to, which bits and cells are written, and the invariant of every run. -/

namespace Sys2Proof

open Machine

/-- What Apply does to the Register File (40_execute_engine.md R70, R73, R74). -/
def Variant.regEffect (v : Variant) (f : Regs) : Regs :=
  match v with
  | .increment r => r.write ((r.read f + 1) % 2 ^ r.width) f
  | .decrement r => r.write ((((r.read f : Int) - 1) % 2 ^ r.width).toNat) f
  | .noop | .stop | .moveRegReg _ _ _ | .moveRegMem _ _ _ | .moveImmReg16 _ _ | .moveImmReg8 _ _ | .moveImmMem _ _ => f

/-- Where bit `k` of a cell stands in a register view: `some j` if it is the view's bit `j`, none if the view does not
name it (10_state.md R14, R17). -/
def Reg.bitOf (r : Reg) (c : Cell) (k : Nat) : Option Nat :=
  match r with
  | .cell d => if d = c ∧ k < 16 then some k else none
  | .view v =>
    if v.parent = c then
      if v.isHigh then (if 8 ≤ k ∧ k < 16 then some (k - 8) else none)
      else (if k < 8 then some k else none)
    else none

/-- The cell that holds a register view's bits. -/
def Reg.home : Reg → Cell
  | .cell c => c
  | .view v => v.parent

/-- The cell an entry writes, if it writes one (40_execute_engine.md R71). -/
def Variant.writes : Variant → Option Cell
  | .increment r => some (r.home)
  | .decrement r => some (r.home)
  | .noop | .stop | .moveRegReg _ _ _ | .moveRegMem _ _ _ | .moveImmReg16 _ _ | .moveImmReg8 _ _ | .moveImmMem _ _ => none

end Sys2Proof

namespace Sys2Proof.Machine

/-- `k` steps, stopping at the first stop. -/
def runSteps : Nat → State → Host.Outcome State Fault Refusal
  | 0, s => .next s
  | k + 1, s =>
    match step s with
    | .next t => runSteps k t
    | .fault e => .fault e
    | .refused e => .refused e

/-- The phases in which no step of a pass is enabled (60_exceptions.md R128). -/
def Phase.quiescent : Phase → Bool
  | .idle | .decoded | .executed | .faulted => true
  | .decoding | .executing => false

/-- The buffer's bytes (10_state.md R26). -/
def State.bytes (s : State) : List Byte := s.buf.bytes

/-- What a whole decode pass over bytes that start at offset `pos` comes to: the entries appended and the fault record
left, clear where the pass ends without fault (30_encoding.md R53, R54, 60_exceptions.md R113, R114). -/
def decodePass : Nat → List Byte → List Variant × FaultRecord
  | _, [] => ([], .clear)
  | pos, op :: rest =>
    if isGroupByte op then
      match rest with
      | [] => ([], ⟨.truncated, pos, 0#8⟩)
      | ss :: rest' =>
        match decodedVariant [op, ss] with
        | none => ([], ⟨.invalidSecondary, pos, ss⟩)
        | some v => (v :: (decodePass (pos + 2) rest').1, (decodePass (pos + 2) rest').2)
    else
      (((decodePrimary op).variant?.getD .noop) :: (decodePass (pos + 1) rest).1, (decodePass (pos + 1) rest).2)

/-- What a whole execute pass does to the Register File: the entries in order, once each (40_execute_engine.md R69). -/
def executePass (vs : List Variant) (f : Regs) : Regs := vs.foldl (fun g v => Variant.regEffect v g) f

/-- The cells no instruction in scope writes (10_state.md R35). -/
def unwrittenCells : List Cell := [.cs, .ds, .es, .ss, .bp, .sp, .ip]

/-- A row's bytes as the opcode table's one number, first byte most significant (log entry 8). -/
def tableWord (bytes : List Byte) : Nat := bytes.foldl (fun w b => w * 256 + b.toNat) 0

/-- A 16-bit instruction's rule, as 42_incdec_r16.md states it: the row `i` is the byte `op` wherever it stands, appends
`v`, and changes the cell `c` by `f` on numbers and nothing else at all. -/
def CellRule (i : Instr) (op : Byte) (v : Variant) (c : Cell) (f : Nat → Nat) : Prop :=
  (∀ rest, decode (op :: rest) = .ok (i, 1)) ∧ i.variant? = some v ∧
  ∀ s : State, ∃ t, exec i s = .next t ∧ (c.get t.regs).toNat = f (c.get s.regs).toNat ∧
    (∀ d, d ≠ c → d.get t.regs = d.get s.regs) ∧ t = { s with regs := t.regs }

/-- An 8-bit instruction's rule, as 43_incdec_r8.md states it: the row `i` is the group byte `g` and the secondary byte
`ss`, appends `v`, and changes the view `x` by `f` on numbers, keeps the other view `y` of the same parent, and changes
nothing else at all; the group byte alone is a truncated row. -/
def ViewRule (i : Instr) (g ss : Byte) (v : Variant) (x y : View) (f : Nat → Nat) : Prop :=
  (∀ rest, decode (g :: ss :: rest) = .ok (i, 2)) ∧ i.variant? = some v ∧
  (∃ j, decode [g] = .ok (j, 1) ∧ j.endsBuffer = true) ∧
  ∀ s : State, ∃ t, exec i s = .next t ∧ (x.get t.regs).toNat = f (x.get s.regs).toNat ∧
    y.get t.regs = y.get s.regs ∧ (∀ d, d ≠ x.parent → d.get t.regs = d.get s.regs) ∧ t = { s with regs := t.regs }

/-- Two states that agree on everything a decode pass reads or writes. -/
def DecodeAgree (s u : State) : Prop :=
  s.buf = u.buf ∧ s.n = u.n ∧ s.dp = u.dp ∧ s.seq = u.seq ∧ s.phase = u.phase ∧ s.record = u.record

/-- What the controller's registers are in each phase (10_state.md R30 to R33). -/
def PhaseInv (s : State) : Prop :=
  match s.phase with
  | .idle => s.dp = 0 ∧ s.seq = [] ∧ s.xp = 0 ∧ s.record = .clear
  | .decoding => s.dp < s.n ∧ s.xp = 0 ∧ s.record = .clear
  | .decoded => s.dp = s.n ∧ s.xp = 0 ∧ s.record = .clear
  | .executing => s.dp = s.n ∧ s.xp < s.seq.length ∧ s.record = .clear
  | .executed => s.dp = s.n ∧ s.xp = s.seq.length ∧ s.record = .clear
  | .faulted => s.xp = 0 ∧ s.record.code ≠ .none ∧ s.record.pos < s.n ∧ s.dp = s.record.pos + 1

/-- `seq` and the fault record are what the decode pass over the buffer comes to: while Decoding, what is decoded so far
followed by what is left to decode; afterwards the whole (30_encoding.md R54, R65, 60_exceptions.md R115). -/
def SequenceInv (s : State) : Prop :=
  match s.phase with
  | .idle => True
  | .decoding => decodePass 0 s.bytes =
      (s.seq ++ (decodePass s.dp (s.bytes.drop s.dp)).1, (decodePass s.dp (s.bytes.drop s.dp)).2)
  | .decoded | .executing | .executed | .faulted => decodePass 0 s.bytes = (s.seq, s.record)

/-- The offset up to which the buffer has been decoded into `seq`. -/
def decodedBytes (s : State) : Nat := if s.phase = .faulted then s.record.pos else s.dp

/-- What holds of every state of a run. The host's command list is free. That `N <= MAX_BUF_LEN` is kept apart from it,
so that no claim about a program's bytes rests on the open parameter. -/
structure RunInvariant (s : State) : Prop where
  /-- The buffer is exactly the offsets 0 to `N - 1` (10_state.md R26). -/
  bufferDense : s.buf.map Prod.fst = List.range s.n
  /-- `dp` ranges over 0 to `N` (10_state.md R27). -/
  pointerInBuffer : s.dp ≤ s.n
  /-- No more entries than bytes decoded (10_state.md R29). -/
  sequenceFits : s.seq.length ≤ s.dp
  /-- `xp` ranges over 0 to `len(seq)` (10_state.md R32). -/
  indexInSequence : s.xp ≤ s.seq.length
  /-- The Decoder emits only encoded Noop, Increment and Decrement (10_state.md R24). -/
  emittedOnly : ∀ v ∈ s.seq, v.emitted = true
  /-- The lengths of the entries add up to what has been decoded (30_encoding.md R54). -/
  lengthsAddUp : (s.seq.map Variant.byteLength).sum = decodedBytes s
  /-- The controller's registers fit the phase (10_state.md R30 to R33). -/
  controller : PhaseInv s
  /-- `seq` is the decoding of the buffer (30_encoding.md R65). -/
  sequence : SequenceInv s
  /-- The registers reflect exactly `seq[0]` to `seq[xp - 1]` (70_reset_and_hazards.md R138). -/
  registers : s.regs = executePass (s.seq.take s.xp) .zero
  /-- Every flag is false (10_state.md R22). -/
  flagsFalse : s.flags = .clear

end Sys2Proof.Machine
end

