-- ==== Sys2Proof/Certificates/Slice0/Obligations.lean ====
section
/-! DEFINITION. The statements for the provers. Each docstring names the rule of spec/ it formalises; where a clause
rests on a choice the spec marks as its own (a decision D<n> of 92_eei_decisions.md or a [derived] tag) or on a choice of
the model (a log entry), the docstring says so and the statement is 'derived'. -/

open Sys2Proof Sys2Proof.Machine

/-! ### Reset -/

/-- 10_state.md R19, R21: every cell is zero and every flag false after reset, at `State.reset` and after every LOAD. -/
def Obligations.ResetZeroesRegistersAndFlags : Prop :=
  (∀ c : Cell, c.get State.reset.regs = 0) ∧ (∀ f : Flag, State.reset.flags.get f = false) ∧
  ∀ (s : State) (bytes : List Byte),
    (∀ c : Cell, c.get (s.loadBytes bytes).regs = 0) ∧ (∀ f : Flag, (s.loadBytes bytes).flags.get f = false)

/-- LOAD sets every piece of the CORE's state (70_reset_and_hazards.md section 1; the controller fields are the spec's
own choice D5, D6, D8). That the pending commands stay is the model's choice, log entry 2. -/
def Obligations.LoadResetsEveryField : Prop :=
  ∀ (s : State) (bytes : List Byte), s.phase.quiescent = true → bytes.length ≤ Config.maxBufLen →
    hostCommand (.load bytes) s = .next
      { regs := .zero, flags := .clear, buf := Memory.ofBytes bytes, n := bytes.length, dp := 0, seq := [],
        phase := .idle, xp := 0, record := ⟨.none, 0, 0#8⟩, commands := s.commands }

/-- A LOAD longer than `MAX_BUF_LEN` has no step (70_reset_and_hazards.md section 1, the spec's own choice D4; the
refusal's name is log entry 5). -/
def Obligations.OverlongLoadHasNoStep : Prop :=
  ∀ (s : State) (bytes : List Byte), s.phase.quiescent = true → Config.maxBufLen < bytes.length →
    hostCommand (.load bytes) s = .refused .loadTooLong

/-- 10_state.md R26: after LOAD the buffer is the LOAD bytes at offsets 0 to `N - 1`, nothing is readable past them, and
neither a step of a pass nor a command other than LOAD changes it. -/
def Obligations.BufferHoldsLoadBytesUntilNextLoad : Prop :=
  (∀ (s : State) (bytes : List Byte) (a : Nat),
    (s.loadBytes bytes).n = bytes.length ∧ memRead (s.loadBytes bytes) a = bytes[a]?) ∧
  (∀ s t : State, s.phase.quiescent = false → step s = .next t →
    t.n = s.n ∧ t.buf = s.buf ∧ ∀ a, memRead t a = memRead s a) ∧
  ∀ (c : Command) (s t : State), (∀ bytes, c ≠ .load bytes) → hostCommand c s = .next t →
    t.n = s.n ∧ t.buf = s.buf ∧ ∀ a, memRead t a = memRead s a

/-- Over all steps: a step that changes the buffer or its length is a quiescent phase's step on a pending LOAD, and it
leaves that LOAD's state (10_state.md section 4, 70_reset_and_hazards.md section 1; the command list is log entry 2). -/
def Obligations.OnlyALoadStepChangesTheBuffer : Prop :=
  ∀ s t : State, step s = .next t →
    (t.n = s.n ∧ t.buf = s.buf) ∨
    ∃ bytes cs, s.phase.quiescent = true ∧ s.commands = .load bytes :: cs ∧ t = (s.setCommands cs).loadBytes bytes

/-! ### The Register File -/

/-- 10_state.md R14, R16: a cell's view reads the cell, and the eight 8-bit views read the low and high bytes of AX, BX,
CX and DX, on numbers. -/
def Obligations.ViewsReadBytesOfTheirParents : Prop :=
  ∀ f : Regs,
    (∀ c : Cell, (Reg.cell c).read f = (c.get f).toNat) ∧
    ∀ p ∈ [(View.al, View.ah, Cell.ax), (.bl, .bh, .bx), (.cl, .ch, .cx), (.dl, .dh, .dx)],
      (Reg.view p.1).read f = (Reg.cell p.2.2).read f % 256 ∧ (Reg.view p.2.1).read f = (Reg.cell p.2.2).read f / 256

/-- 10_state.md R15, R17, R18: writing a register view puts the value's bits, reduced to the view's width, into exactly
the bits the view names, and every other bit of every cell is unchanged. -/
def Obligations.WriteChangesExactlyNamedBits : Prop :=
  ∀ (r : Reg) (x : Nat) (f : Regs) (c : Cell) (k : Nat),
    (c.get (r.write x f)).getLsbD k =
      (match r.bitOf c k with
       | some j => x.testBit j
       | none => (c.get f).getLsbD k)

/-- 10_state.md R18: a value written to any of the 21 views reads back reduced modulo 2 to the view's width, and what an
8-bit write carries out reaches no other view. -/
def Obligations.ReadAfterWriteWrapsToWidth : Prop :=
  (∀ (r : Reg) (x : Nat) (f : Regs), r.read (r.write x f) = x % 2 ^ r.width) ∧
  ∀ (v u : View) (x : Nat) (f : Regs), u ≠ v → u.get ((Reg.view v).write x f) = u.get f

/-! ### Increment and Decrement -/

/-- 40_execute_engine.md R73, R74: Increment and Decrement of each of the 21 register names wrap modulo 2 to the width,
16 for a cell and 8 for a view, and keep every bit of every cell that the register does not name. -/
def Obligations.IncrementAndDecrementWrap : Prop :=
  ∀ (r : Reg) (f : Regs),
    r.width = (match r with | .cell _ => 16 | .view _ => 8) ∧
    r.read (incrementReg r f) = (r.read f + 1) % 2 ^ r.width ∧
    ((r.read (decrementReg r f) : Nat) : Int) = ((r.read f : Int) - 1) % 2 ^ r.width ∧
    ∀ (c : Cell) (k : Nat), r.bitOf c k = none →
      (c.get (incrementReg r f)).getLsbD k = (c.get f).getLsbD k ∧
      (c.get (decrementReg r f)).getLsbD k = (c.get f).getLsbD k

/-- 42_incdec_r16.md R79 to R84: encoding, result modulo 2^16, frame and completion of INC AX, CX, DX, BX, SI, DI. -/
def Obligations.IncrementWordRegisters : Prop :=
  CellRule .incAx 0x40#8 (.increment (.cell .ax)) .ax (fun x => (x + 1) % 65536) ∧
  CellRule .incCx 0x41#8 (.increment (.cell .cx)) .cx (fun x => (x + 1) % 65536) ∧
  CellRule .incDx 0x42#8 (.increment (.cell .dx)) .dx (fun x => (x + 1) % 65536) ∧
  CellRule .incBx 0x43#8 (.increment (.cell .bx)) .bx (fun x => (x + 1) % 65536) ∧
  CellRule .incSi 0x46#8 (.increment (.cell .si)) .si (fun x => (x + 1) % 65536) ∧
  CellRule .incDi 0x47#8 (.increment (.cell .di)) .di (fun x => (x + 1) % 65536)

/-- 42_incdec_r16.md R85 to R88: encoding, result modulo 2^16 (0 gives 65535), frame and completion of DEC AX, CX, DX,
BX. -/
def Obligations.DecrementWordRegisters : Prop :=
  CellRule .decAx 0x48#8 (.decrement (.cell .ax)) .ax (fun x => (x + 65535) % 65536) ∧
  CellRule .decCx 0x49#8 (.decrement (.cell .cx)) .cx (fun x => (x + 65535) % 65536) ∧
  CellRule .decDx 0x4A#8 (.decrement (.cell .dx)) .dx (fun x => (x + 65535) % 65536) ∧
  CellRule .decBx 0x4B#8 (.decrement (.cell .bx)) .bx (fun x => (x + 65535) % 65536)

/-- 43_incdec_r8.md R89 to R92: encoding, result modulo 2^8 with no carry into the high byte, frame and completion of
INC AL, CL, DL, BL. -/
def Obligations.IncrementLowBytes : Prop :=
  ViewRule .incAl 0xFE#8 0xC0#8 (.increment (.view .al)) .al .ah (fun x => (x + 1) % 256) ∧
  ViewRule .incCl 0xFE#8 0xC1#8 (.increment (.view .cl)) .cl .ch (fun x => (x + 1) % 256) ∧
  ViewRule .incDl 0xFE#8 0xC2#8 (.increment (.view .dl)) .dl .dh (fun x => (x + 1) % 256) ∧
  ViewRule .incBl 0xFE#8 0xC3#8 (.increment (.view .bl)) .bl .bh (fun x => (x + 1) % 256)

/-- 43_incdec_r8.md R93 to R96: encoding under group 0xFC, result modulo 2^8, frame and completion of INC AH, CH, DH,
BH. -/
def Obligations.IncrementHighBytes : Prop :=
  ViewRule .incAh 0xFC#8 0xC4#8 (.increment (.view .ah)) .ah .al (fun x => (x + 1) % 256) ∧
  ViewRule .incCh 0xFC#8 0xC5#8 (.increment (.view .ch)) .ch .cl (fun x => (x + 1) % 256) ∧
  ViewRule .incDh 0xFC#8 0xC6#8 (.increment (.view .dh)) .dh .dl (fun x => (x + 1) % 256) ∧
  ViewRule .incBh 0xFC#8 0xC7#8 (.increment (.view .bh)) .bh .bl (fun x => (x + 1) % 256)

/-- 43_incdec_r8.md R97 to R100: encoding, result modulo 2^8 with no borrow from the high byte, frame and completion of
DEC AL, CL, DL, BL. -/
def Obligations.DecrementLowBytes : Prop :=
  ViewRule .decAl 0xFE#8 0xC8#8 (.decrement (.view .al)) .al .ah (fun x => (x + 255) % 256) ∧
  ViewRule .decCl 0xFE#8 0xC9#8 (.decrement (.view .cl)) .cl .ch (fun x => (x + 255) % 256) ∧
  ViewRule .decDl 0xFE#8 0xCA#8 (.decrement (.view .dl)) .dl .dh (fun x => (x + 255) % 256) ∧
  ViewRule .decBl 0xFE#8 0xCB#8 (.decrement (.view .bl)) .bl .bh (fun x => (x + 255) % 256)

/-- 43_incdec_r8.md R101 to R104: encoding, result modulo 2^8, frame and completion of DEC AH, CH, DH, BH. -/
def Obligations.DecrementHighBytes : Prop :=
  ViewRule .decAh 0xFE#8 0xCC#8 (.decrement (.view .ah)) .ah .al (fun x => (x + 255) % 256) ∧
  ViewRule .decCh 0xFE#8 0xCD#8 (.decrement (.view .ch)) .ch .cl (fun x => (x + 255) % 256) ∧
  ViewRule .decDh 0xFE#8 0xCE#8 (.decrement (.view .dh)) .dh .dl (fun x => (x + 255) % 256) ∧
  ViewRule .decBh 0xFE#8 0xCF#8 (.decrement (.view .bh)) .bh .bl (fun x => (x + 255) % 256)

/-- 41_nop.md R77, R78: NOP by 0x90 and by every other unlisted primary byte writes no state at all, both append the same
Instruction, whatever follows in the buffer, and the execute step on it still advances `xp`. -/
def Obligations.NoopWritesNothing : Prop :=
  ∀ (s : State) (op : Byte) (rest : List Byte),
    decode (0x90#8 :: rest) = .ok (.nop, 1) ∧ Instr.nop.variant? = some .noop ∧ exec .nop s = .next s ∧
    (isFallbackByte op = true → decode (op :: rest) = .ok (.nopFallback op, 1)) ∧
    (Instr.nopFallback op).variant? = some .noop ∧ exec (.nopFallback op) s = .next s ∧
    (s.phase = .executing → s.seq[s.xp]? = some .noop →
      step s = .next { s with xp := s.xp + 1, phase := if s.xp + 1 = s.seq.length then .executed else .executing })

/-- The four fault rows take the decode fault at `dp` and write nothing else (60_exceptions.md section 2; the record and
the pointer after it are the spec's own choice D8, D9; that the rows are constructors is log entry 9). -/
def Obligations.FaultRowsTakeTheDecodeFault : Prop :=
  ∀ (s : State) (ss : Byte),
    exec (.invalidSecondaryFe ss) s =
      .next { s with record := ⟨.invalidSecondary, s.dp, ss⟩, dp := s.dp + 1, phase := .faulted } ∧
    exec (.invalidSecondaryFc ss) s =
      .next { s with record := ⟨.invalidSecondary, s.dp, ss⟩, dp := s.dp + 1, phase := .faulted } ∧
    exec .truncatedFe s = .next { s with record := ⟨.truncated, s.dp, 0#8⟩, dp := s.dp + 1, phase := .faulted } ∧
    exec .truncatedFc s = .next { s with record := ⟨.truncated, s.dp, 0#8⟩, dp := s.dp + 1, phase := .faulted }

/-- The frame of every row of the table: `BUF`, `N`, `seq`, `xp`, the flags and the pending commands are unchanged, every
byte of the buffer reads as before, and a row that is appended to `seq` writes no cell but its own and leaves `dp`,
`PHASE` and the fault record alone (40_execute_engine.md sections 1 and 2, 60_exceptions.md section 2). -/
def Obligations.EveryRowKeepsItsFrame : Prop :=
  ∀ (i : Instr) (s t : State), exec i s = .next t →
    t.buf = s.buf ∧ t.n = s.n ∧ t.seq = s.seq ∧ t.xp = s.xp ∧ t.flags = s.flags ∧ t.commands = s.commands ∧
    (∀ a, memRead t a = memRead s a) ∧
    (∀ v, i.variant? = some v → t.dp = s.dp ∧ t.phase = s.phase ∧ t.record = s.record ∧
      ∀ c : Cell, v.writes ≠ some c → c.get t.regs = c.get s.regs) ∧
    (i.variant? = none → t.regs = s.regs)

/-- 10_state.md R22: no instruction writes a flag; no instruction, step of a pass or command but LOAD reads one, in that
it does the same whatever the flags are; and every step of a pass and every command leaves false flags false. -/
def Obligations.FlagsAreNeitherWrittenNorRead : Prop :=
  (∀ (i : Instr) (s t : State), exec i s = .next t → t.flags = s.flags) ∧
  (∀ (i : Instr) (s : State) (g : Flags),
    exec i { s with flags := g } = thenDo (exec i s) (fun t => { t with flags := g })) ∧
  (∀ (s : State) (g : Flags), s.phase.quiescent = false →
    step { s with flags := g } = thenDo (step s) (fun t => { t with flags := g })) ∧
  (∀ (c : Command) (s : State) (g : Flags), (∀ bytes, c ≠ .load bytes) →
    hostCommand c { s with flags := g } = thenDo (hostCommand c s) (fun t => { t with flags := g })) ∧
  (∀ s t : State, s.phase.quiescent = false → s.flags = .clear → step s = .next t → t.flags = .clear) ∧
  ∀ (c : Command) (s t : State), s.flags = .clear → hostCommand c s = .next t → t.flags = .clear

/-- 20_memory.md R37: no instruction, execute step or command but LOAD reads or writes the bytes of the buffer: each does
the same, and leaves them, whatever they are. A decode step reads them and writes none. -/
def Obligations.OnlyTheDecodePassReadsTheBuffer : Prop :=
  (∀ (i : Instr) (s : State) (m : Memory),
    exec i { s with buf := m } = thenDo (exec i s) (fun t => { t with buf := m })) ∧
  (∀ (s : State) (m : Memory), s.phase = .executing →
    step { s with buf := m } = thenDo (step s) (fun t => { t with buf := m })) ∧
  (∀ (c : Command) (s : State) (m : Memory), (∀ bytes, c ≠ .load bytes) →
    hostCommand c { s with buf := m } = thenDo (hostCommand c s) (fun t => { t with buf := m })) ∧
  ∀ s t : State, s.phase = .decoding → step s = .next t →
    t.buf = s.buf ∧ t.n = s.n ∧ ∀ a, memRead t a = memRead s a

/-! ### Encoding -/

/-- 30_encoding.md R56: the primary bytes that decode to an Increment of a 16-bit register are exactly these six. -/
def Obligations.PrimaryIncrementMap : Prop :=
  ∀ (op : Byte) (rest : List Byte) (c : Cell),
    decodedVariant (op :: rest) = some (.increment (.cell c)) ↔
      (op, c) ∈ [(0x40#8, Cell.ax), (0x41#8, .cx), (0x42#8, .dx), (0x43#8, .bx), (0x46#8, .si), (0x47#8, .di)]

/-- 30_encoding.md R57: the primary bytes that decode to a Decrement of a 16-bit register are exactly these four. -/
def Obligations.PrimaryDecrementMap : Prop :=
  ∀ (op : Byte) (rest : List Byte) (c : Cell),
    decodedVariant (op :: rest) = some (.decrement (.cell c)) ↔
      (op, c) ∈ [(0x48#8, Cell.ax), (0x49#8, .cx), (0x4A#8, .dx), (0x4B#8, .bx)]

/-- 30_encoding.md R59: group 0xFE appends exactly these twelve Instructions for these twelve secondary bytes. -/
def Obligations.GroupFeMap : Prop :=
  ∀ (ss : Byte) (rest : List Byte) (v : Variant),
    decodedVariant (0xFE#8 :: ss :: rest) = some v ↔
      (ss, v) ∈ [(0xC0#8, Variant.increment (.view .al)), (0xC1#8, .increment (.view .cl)),
        (0xC2#8, .increment (.view .dl)), (0xC3#8, .increment (.view .bl)),
        (0xC8#8, .decrement (.view .al)), (0xC9#8, .decrement (.view .cl)),
        (0xCA#8, .decrement (.view .dl)), (0xCB#8, .decrement (.view .bl)),
        (0xCC#8, .decrement (.view .ah)), (0xCD#8, .decrement (.view .ch)),
        (0xCE#8, .decrement (.view .dh)), (0xCF#8, .decrement (.view .bh))]

/-- 30_encoding.md R60: group 0xFC appends exactly these four Instructions for these four secondary bytes. -/
def Obligations.GroupFcMap : Prop :=
  ∀ (ss : Byte) (rest : List Byte) (v : Variant),
    decodedVariant (0xFC#8 :: ss :: rest) = some v ↔
      (ss, v) ∈ [(0xC4#8, Variant.increment (.view .ah)), (0xC5#8, .increment (.view .ch)),
        (0xC6#8, .increment (.view .dh)), (0xC7#8, .increment (.view .bh))]

/-- 30_encoding.md R58: the primary bytes outside the table of R55 are the 243 values of the rule's list; each is one
byte long, is no fault and appends the Noop of 0x90. -/
def Obligations.UnlistedPrimaryBytesAreNoop : Prop :=
  (∀ op : Byte, isFallbackByte op = true ↔
    op ∉ [0x40#8, 0x41#8, 0x42#8, 0x43#8, 0x46#8, 0x47#8, 0x48#8, 0x49#8, 0x4A#8, 0x4B#8, 0x90#8, 0xFC#8, 0xFE#8]) ∧
  ((List.range 256).countP (fun x => isFallbackByte (BitVec.ofNat 8 x))) = 243 ∧
  ∀ (op : Byte) (rest : List Byte), isFallbackByte op = true →
    decode (op :: rest) = .ok (.nopFallback op, 1) ∧
    decodedVariant (op :: rest) = decodedVariant [0x90#8] ∧ decodedVariant [0x90#8] = some .noop

/-- 30_encoding.md R50: the first byte alone decides how many bytes an instruction takes, two for a group byte and one
otherwise; a group byte with no second byte is no instruction of length two but the truncated row. -/
def Obligations.FirstByteDecidesLength : Prop :=
  ∀ (op : Byte) (rest : List Byte) (i : Instr) (len : Nat), decode (op :: rest) = .ok (i, len) →
    (i.endsBuffer = false → len = if op = 0xFE#8 ∨ op = 0xFC#8 then 2 else 1) ∧
    (i.endsBuffer = true ↔ (op = 0xFE#8 ∨ op = 0xFC#8) ∧ rest = [])

/-- Decoding the encoding of a well-formed row gives it back, with every byte used and whatever follows; a truncated row
is an instruction only where nothing follows (30_encoding.md sections 1 and 3, opcode_table.json; log entry 9). -/
def Obligations.DecodeOfEncodeIsIdentity : Prop :=
  ∀ (i : Instr) (rest : List Byte), i.wf = true → (i.endsBuffer = true → rest = []) →
    decode (encode i ++ rest) = .ok (i, (encode i).length)

/-- Each byte sequence has one meaning: whatever decodes is well formed, and its encoding is the bytes it was read from
(30_encoding.md sections 1 and 3). -/
def Obligations.EncodeOfDecodeIsTheBytesRead : Prop :=
  ∀ (bytes : List Byte) (i : Instr) (len : Nat), decode bytes = .ok (i, len) →
    i.wf = true ∧ encode i = bytes.take len ∧ len ≤ bytes.length ∧ (i.endsBuffer = true → bytes.length = 1) ∧
    (∀ v, i.variant? = some v → v.emitted = true ∧ v.byteLength = len)

/-- Some words written out from the encodings of 30_encoding.md section 5, one of each family, decode to their rows. -/
def Obligations.SampleWordsDecode : Prop :=
  decodeTableWord 8 0x90 = some .nop ∧ decodeTableWord 8 0x47 = some .incDi ∧ decodeTableWord 8 0x4B = some .decBx ∧
  decodeTableWord 16 0xFEC2 = some .incDl ∧ decodeTableWord 16 0xFCC7 = some .incBh ∧
  decodeTableWord 16 0xFECC = some .decAh ∧ decodeTableWord 16 0xFEC4 = some (.invalidSecondaryFe 0xC4#8) ∧
  decodeTableWord 16 0xFCC0 = some (.invalidSecondaryFc 0xC0#8) ∧ decodeTableWord 8 0xFC = some .truncatedFc ∧
  decodeTableWord 8 0x44 = some (.nopFallback 0x44#8)

/-- A table word placed in any state is read as its row, and the next step runs exactly that row: in the execute pass for
a row that is appended to `seq`, as the decode fault for a fault row (log entries 3 and 8). -/
def Obligations.PlacedTableWordRunsNext : Prop :=
  ∀ (i : Instr) (s : State), i.wf = true →
    decodeTableWord (8 * (encode i).length) (tableWord (encode i)) = some i ∧
    ∃ t, exec i (s.withFetchWord (8 * (encode i).length) (tableWord (encode i))) = .next t ∧
      step (s.withFetchWord (8 * (encode i).length) (tableWord (encode i))) =
        .next (if i.variant? = none then t else { t with xp := 1, phase := .executed })

/-! ### The decode pass -/

/-- A step runs the decoded instruction (30_encoding.md section 2). While Decoding, the bytes the step reads at `dp`
decode to a row; a row with an entry is appended and the pointer moves past it, and a fault row is run where it stands. -/
def Obligations.DecodeStepRunsTheRowAtThePointer : Prop :=
  ∀ (s : State) (bytes : List Byte) (i : Instr) (len : Nat),
    s.phase = .decoding → fetch s = some bytes → decode bytes = .ok (i, len) →
    (∀ v, i.variant? = some v →
      step s = .next { s with seq := s.seq ++ [v], dp := s.dp + len,
                              phase := if s.dp + len = s.n then .decoded else .decoding }) ∧
    (i.variant? = none → ∃ t, exec i s = .next t ∧ step s = .next t)

/-- 30_encoding.md R51: a decode step that decodes moves the pointer by the instruction's length, and no decode step
moves it back or past `N`. -/
def Obligations.PointerAdvancesByBytesConsumed : Prop :=
  ∀ s t : State, s.phase = .decoding → step s = .next t →
    s.dp < t.dp ∧ t.dp ≤ s.n ∧
    (t.phase ≠ .faulted → ∃ op v, memRead s s.dp = some op ∧ t.seq = s.seq ++ [v] ∧
      t.dp = s.dp + (if op = 0xFE#8 ∨ op = 0xFC#8 then 2 else 1))

/-- A group byte with an unlisted secondary byte is an explicit decode failure (30_encoding.md section 3.2,
60_exceptions.md section 2; the record and the pointer are the spec's own choice D8, D9). -/
def Obligations.UnlistedSecondaryFaultsTheDecodePass : Prop :=
  ∀ (s : State) (g ss : Byte), s.phase = .decoding → memRead s s.dp = some g → memRead s (s.dp + 1) = some ss →
    (g = 0xFE#8 ∧ listedFe ss = false ∨ g = 0xFC#8 ∧ listedFc ss = false) →
    step s = .next { s with record := ⟨.invalidSecondary, s.dp, ss⟩, dp := s.dp + 1, phase := .faulted }

/-- A group byte at the last offset is a truncated instruction, and no byte past the buffer is read (30_encoding.md
section 3.2, 60_exceptions.md section 2; the record and the pointer are the spec's own choice D8, D9). -/
def Obligations.GroupByteAtTheEndIsTruncated : Prop :=
  ∀ (s : State) (g : Byte), s.phase = .decoding → memRead s s.dp = some g → s.dp + 1 = s.n →
    (g = 0xFE#8 ∨ g = 0xFC#8) →
    step s = .next { s with record := ⟨.truncated, s.dp, 0#8⟩, dp := s.n, phase := .faulted }

/-- The decode pass ends within one step a byte, and what it leaves is the pure decoding of the rest of the buffer:
Decoded with `dp = N`, or Faulted with the record of the lowest malformed group (30_encoding.md section 2 and the
[derived] termination of R54; 60_exceptions.md sections 2 and 3, D8, D9). -/
def Obligations.DecodePassComputesTheDecoding : Prop :=
  ∀ s : State, s.phase = .decoding → s.buf.map Prod.fst = List.range s.n → s.dp < s.n → s.record = .clear →
    ∃ k t, k ≤ s.n - s.dp ∧ runSteps k s = .next t ∧
      t.seq = s.seq ++ (decodePass s.dp (s.bytes.drop s.dp)).1 ∧
      t.record = (decodePass s.dp (s.bytes.drop s.dp)).2 ∧
      t.regs = s.regs ∧ t.flags = s.flags ∧ t.xp = s.xp ∧ t.buf = s.buf ∧ t.n = s.n ∧
      (t.phase = .decoded ∧ t.dp = s.n ∧ t.record = .clear ∨
        t.phase = .faulted ∧ t.record.code ≠ .none ∧ t.dp = t.record.pos + 1)

/-- The decode pass depends on the buffer alone (30_encoding.md section 4). Two states that agree on it and stand at the
same point of the pass leave equal sequences, pointers, phases and fault records after any number of steps, whatever their
registers and flags. For the steps past the pass's end it rests on the model's choice that a state with no pending command
holds, log entry 2. -/
def Obligations.DecodingDependsOnTheBufferAlone : Prop :=
  ∀ (k : Nat) (s u t : State), DecodeAgree s u → s.phase = .decoding → s.commands = [] → u.commands = [] →
    runSteps k s = .next t → ∃ w, runSteps k u = .next w ∧ DecodeAgree t w

/-! ### The execute pass -/

/-- A step runs the entry at `xp`: the row's own meaning, then `xp` moves on and the pass ends at the sequence's end
(40_execute_engine.md section 1; the step and `xp` are the spec's own choice D2, D5; log entry 10). -/
def Obligations.ExecuteStepRunsTheEntryAtTheIndex : Prop :=
  ∀ (s : State) (i : Instr) (v : Variant), s.phase = .executing → s.seq[s.xp]? = some v → i.variant? = some v →
    ∃ t, exec i s = .next t ∧
      step s = .next { t with xp := s.xp + 1, phase := if s.xp + 1 = s.seq.length then .executed else .executing }

/-- Apply is total over the nine variants and all 21 register names (40_execute_engine.md section 1). For Increment and
Decrement of a register with no such encoding it rests on the model's reading of Apply's table, log entry 12. -/
def Obligations.ApplyIsTotal : Prop :=
  ∀ s : State,
    applyVariant .noop s = .next s ∧ applyVariant .stop s = .next s ∧
    (∀ r : Reg, applyVariant (.increment r) s =
      .next { s with regs := r.write ((r.read s.regs + 1) % 2 ^ r.width) s.regs }) ∧
    (∀ r : Reg, applyVariant (.decrement r) s =
      .next { s with regs := r.write ((r.read s.regs + (2 ^ r.width - 1)) % 2 ^ r.width) s.regs }) ∧
    (∀ d r1 r2, applyVariant (.moveRegReg d r1 r2) s = .next s) ∧
    (∀ d r a, applyVariant (.moveRegMem d r a) s = .next s) ∧
    (∀ x r, applyVariant (.moveImmReg16 x r) s = .next s) ∧
    (∀ x r, applyVariant (.moveImmReg8 x r) s = .next s) ∧
    (∀ x a, applyVariant (.moveImmMem x a) s = .next s)

/-- 44_declared_unencoded.md R105 to R110: no bytes decode to Stop or a Move, and an execute step on one writes nothing
but `xp` and, at the sequence's end, `PHASE`: a Stop does not end the pass. -/
def Obligations.StopAndMovesHaveNoEncodingAndNoEffect : Prop :=
  ∀ v : Variant,
    (v = .stop ∨ (∃ d r1 r2, v = .moveRegReg d r1 r2) ∨ (∃ d r a, v = .moveRegMem d r a) ∨
      (∃ x r, v = .moveImmReg16 x r) ∨ (∃ x r, v = .moveImmReg8 x r) ∨ (∃ x a, v = .moveImmMem x a)) →
    (∀ bytes, decodedVariant bytes ≠ some v) ∧
    ∀ s : State, s.phase = .executing → s.seq[s.xp]? = some v →
      step s = .next { s with xp := s.xp + 1, phase := if s.xp + 1 = s.seq.length then .executed else .executing }

/-- 40_execute_engine.md R71: an execute step writes only the cell its Instruction names, `xp`, and `PHASE` at the pass's
end. -/
def Obligations.ExecuteStepWritesOnlyItsCell : Prop :=
  ∀ s t : State, s.phase = .executing → step s = .next t →
    t.dp = s.dp ∧ t.buf = s.buf ∧ t.n = s.n ∧ t.seq = s.seq ∧ t.flags = s.flags ∧ t.record = s.record ∧
    t.commands = s.commands ∧ t.xp = s.xp + 1 ∧
    (t.phase = if t.xp = s.seq.length then .executed else .executing) ∧
    ∃ v, s.seq[s.xp]? = some v ∧ ∀ c : Cell, v.writes ≠ some c → c.get t.regs = c.get s.regs

/-- 40_execute_engine.md R75: no execute step of a pass stops, whichever of the nine variants stands at `xp`, and a state
left Executing has a next step. -/
def Obligations.ExecutePassHasNoFailurePath : Prop :=
  ∀ s : State, s.phase = .executing → s.xp < s.seq.length →
    ∃ t, step s = .next t ∧ t.phase ≠ .faulted ∧ (t.phase = .executing → t.xp < t.seq.length ∧ ∃ u, step t = .next u)

/-- The execute pass applies the entries in order, exactly once each, and ends after one step an entry
(40_execute_engine.md section 1; the index `xp` is the spec's own choice D5). For entries that no bytes decode to it rests on
the model's reading of Apply's table, log entry 12. -/
def Obligations.ExecutePassAppliesEntriesInOrder : Prop :=
  ∀ s : State, s.phase = .executing → s.xp < s.seq.length →
    (∀ k, k < s.seq.length - s.xp →
      runSteps k s = .next { s with regs := executePass ((s.seq.drop s.xp).take k) s.regs, xp := s.xp + k }) ∧
    runSteps (s.seq.length - s.xp) s =
      .next { s with regs := executePass (s.seq.drop s.xp) s.regs, xp := s.seq.length, phase := .executed }

/-- 40_execute_engine.md R76: EXECUTE of an empty decoded sequence changes only `PHASE`, and EXECUTE in Idle changes
nothing. -/
def Obligations.EmptySequenceExecutesToItself : Prop :=
  (∀ s : State, s.phase = .decoded → s.seq = [] → hostCommand .execute s = .next { s with phase := .executed }) ∧
  ∀ s : State, s.phase = .idle → hostCommand .execute s = .next s

/-! ### The controller -/

/-- The acceptance table of the host's three commands, all six phases of each (10_state.md section 4; "no effect" and "no
move" are the spec's own choice D7, D15, the starts D6 and LOAD's bound D4; the refusals' names are log entry 5, and that
LOAD keeps the pending commands is log entry 2). -/
def Obligations.HostCommandAcceptanceTable : Prop :=
  ∀ s : State,
    hostCommand .decode s =
      (match s.phase with
       | .idle => .next { s with phase := if s.n = 0 then .decoded else .decoding }
       | .decoded => .next s
       | .executed => .next s
       | .faulted => .next s
       | .decoding => .refused .commandDuringPass
       | .executing => .refused .commandDuringPass) ∧
    hostCommand .execute s =
      (match s.phase with
       | .decoded => .next { s with phase := if s.seq = [] then .executed else .executing }
       | .idle => .next s
       | .executed => .next s
       | .faulted => .next s
       | .decoding => .refused .commandDuringPass
       | .executing => .refused .commandDuringPass) ∧
    ∀ bytes, hostCommand (.load bytes) s =
      (match s.phase with
       | .idle => if bytes.length ≤ Config.maxBufLen then .next (s.loadBytes bytes) else .refused .loadTooLong
       | .decoded => if bytes.length ≤ Config.maxBufLen then .next (s.loadBytes bytes) else .refused .loadTooLong
       | .executed => if bytes.length ≤ Config.maxBufLen then .next (s.loadBytes bytes) else .refused .loadTooLong
       | .faulted => if bytes.length ≤ Config.maxBufLen then .next (s.loadBytes bytes) else .refused .loadTooLong
       | .decoding => .refused .commandDuringPass
       | .executing => .refused .commandDuringPass)

/-- The assembler path is refused by name and has no step, in every state (00_scope.md section 5; the refusal's name and
its standing among the commands are log entry 5). -/
def Obligations.AssemblerIsRefused : Prop :=
  ∀ (s : State) (source : List Byte), hostCommand (.assemble source) s = .refused .assemblerNotInCore

/-- In a quiescent phase a step is the host's next command, and with none the state holds (60_exceptions.md section 5;
the command list is log entry 2). -/
def Obligations.QuiescentPhasesWaitForTheHost : Prop :=
  ∀ s : State, s.phase.quiescent = true →
    (s.commands = [] → step s = .next s) ∧
    ∀ c cs, s.commands = c :: cs → step s = hostCommand c { s with commands := cs }

/-- The host cannot act during a pass: a step of a pass does the same whatever commands are pending, and consumes none
(70_reset_and_hazards.md section 3, the spec's own choice D15; log entry 2). -/
def Obligations.PendingCommandsCannotDisturbAPass : Prop :=
  ∀ (s : State) (cs : List Command), s.phase.quiescent = false →
    step { s with commands := cs } = thenDo (step s) (fun t => { t with commands := cs })

/-- The passes never overlap (70_reset_and_hazards.md section 3). A decode step executes nothing and leads to no execute
step; an execute step decodes nothing and leads to no decode step; an execute pass starts only on EXECUTE in Decoded, and a
decode pass only on DECODE in Idle (10_state.md section 4, 30_encoding.md section 2; the spec's own choice D6, D7). That the
step reads its command off a list is the model's choice, log entry 2. -/
def Obligations.PassesNeverOverlap : Prop :=
  (∀ s t : State, s.phase = .decoding → step s = .next t →
    t.phase ≠ .executing ∧ t.phase ≠ .executed ∧ t.regs = s.regs ∧ t.xp = s.xp) ∧
  (∀ s t : State, s.phase = .executing → step s = .next t →
    (t.phase = .executing ∨ t.phase = .executed) ∧ t.seq = s.seq ∧ t.dp = s.dp) ∧
  ∀ s t : State, step s = .next t →
    (t.phase = .executing → s.phase = .executing ∨ s.phase = .decoded ∧ ∃ cs, s.commands = .execute :: cs) ∧
    (t.phase = .decoding → s.phase = .decoding ∨ s.phase = .idle ∧ ∃ cs, s.commands = .decode :: cs)

/-- Only LOAD leaves Faulted, and only LOAD clears the fault record: every other step from Faulted changes nothing but
the pending commands (60_exceptions.md sections 2 and 3, the spec's own choice D7, D18; log entry 2). -/
def Obligations.OnlyLoadLeavesFaulted : Prop :=
  ∀ s t : State, s.phase = .faulted → step s = .next t →
    t = { s with commands := s.commands.tail } ∨
    ∃ bytes cs, s.commands = .load bytes :: cs ∧ t = { s.loadBytes bytes with commands := cs }

/-- 00_scope.md R8 as the spec's own choice D1: what the host can read is exactly the registers, the flags, `dp`, `PHASE`,
the fault record and `seq`: two states show it the same if and only if they agree on those. -/
def Obligations.OutputsShowExactlyTheNamedState : Prop :=
  ∀ s u : State, (∀ p : Port, hostRead s p = hostRead u p) ↔
    s.regs = u.regs ∧ s.flags = u.flags ∧ s.dp = u.dp ∧ s.phase = u.phase ∧ s.record = u.record ∧ s.seq = u.seq

/-! ### The invariant and whole runs -/

/-- The invariant holds at reset, and the buffer is within its bound (10_state.md section 5; the empty buffer is log
entry 1). -/
def Obligations.InvariantHoldsAtReset : Prop :=
  RunInvariant State.reset ∧ State.reset.n ≤ Config.maxBufLen

/-- Every step keeps the invariant: buffer, pointers, phase, fault record, the sequence as the decoding of the buffer, the
registers as the entries applied so far, and the flags (10_state.md sections 1 to 5, 30_encoding.md section 2,
60_exceptions.md section 2, 70_reset_and_hazards.md section 3; decisions D2, D5, D6, D8, D9). And every step keeps
`N <= MAX_BUF_LEN` (D4). -/
def Obligations.EveryStepKeepsTheInvariant : Prop :=
  ∀ s t : State, step s = .next t →
    (RunInvariant s → RunInvariant t) ∧ (s.n ≤ Config.maxBufLen → t.n ≤ Config.maxBufLen)

/-- From a state that meets the invariant a step stops only where the spec gives none: an over-long LOAD or the assembler
path (70_reset_and_hazards.md section 2, the [derived] absence of hangs; D4; log entries 5, 6, 7). -/
def Obligations.StepsStopOnlyOnRefusedCommands : Prop :=
  ∀ s : State, RunInvariant s →
    (∃ t, step s = .next t) ∨
    s.phase.quiescent = true ∧
      ((∃ bytes cs, s.commands = .load bytes :: cs ∧ Config.maxBufLen < bytes.length ∧ step s = .refused .loadTooLong) ∨
        ∃ source cs, s.commands = .assemble source :: cs ∧ step s = .refused .assemblerNotInCore)

/-- The segment, pointer and IP cells stay zero from reset to the end of a run, whatever the program (10_state.md section
5, [derived], and the spec's own choice D3 for IP). -/
def Obligations.UnwrittenCellsStayZero : Prop :=
  ∀ s : State, RunInvariant s → ∀ c ∈ unwrittenCells, c.get s.regs = 0

/-- A decode fault is precise: the registers and flags are as at LOAD, and `seq` is exactly the decoding of the bytes
before `FAULT_POS`, with no fault among them (60_exceptions.md sections 2 and 3, [derived]; D8, D9). -/
def Obligations.DecodeFaultsArePrecise : Prop :=
  ∀ s : State, RunInvariant s → s.phase = .faulted →
    s.regs = .zero ∧ s.flags = .clear ∧ decodePass 0 (s.bytes.take s.record.pos) = (s.seq, .clear) ∧
    (s.seq.map Variant.byteLength).sum = s.record.pos

/-- A whole run of any program: from the state LOAD leaves, DECODE and EXECUTE end within two steps and two a byte, with
the decoded entries applied in order from zero registers, or with the first decode fault and nothing executed. LOAD
itself gets there where the program fits (70_reset_and_hazards.md section 2, [derived]; the phases and the record are D6,
D7, D8, and the pointer and the entries kept after a fault D9; the command list is log entry 2). -/
def Obligations.EveryProgramRunsToItsEnd : Prop :=
  ∀ (s : State) (bytes : List Byte),
    (s.phase.quiescent = true → bytes.length ≤ Config.maxBufLen → s.commands = [.load bytes, .decode, .execute] →
      step s = .next { s.loadBytes bytes with commands := [.decode, .execute] }) ∧
    ∃ k t, k ≤ 2 + 2 * bytes.length ∧ runSteps k { s.loadBytes bytes with commands := [.decode, .execute] } = .next t ∧
      t.flags = .clear ∧ t.commands = [] ∧
      t.seq = (decodePass 0 bytes).1 ∧ t.record = (decodePass 0 bytes).2 ∧
      (t.phase = .executed ∧ t.record.code = .none ∧ t.dp = bytes.length ∧ t.regs = executePass t.seq .zero ∨
        t.phase = .faulted ∧ t.record.code ≠ .none ∧ t.dp = t.record.pos + 1 ∧ t.regs = .zero)
end

