-- ==== Sys2Proof/Laws/Decode.lean ====
section
/-! SUPPORT. The Decoder's laws: the tables agree with the syntax's side conditions, and what a decode can answer. -/

namespace Sys2Proof

open Machine

theorem isGroupByte_iff (op : Byte) : isGroupByte op = true ↔ op = 0xFE#8 ∨ op = 0xFC#8 := by
  simp [isGroupByte]

theorem decodeGroupFe_of_unlisted : ∀ ss : Byte, listedFe ss = false → decodeGroupFe ss = .invalidSecondaryFe ss := by
  decide +kernel

theorem decodeGroupFc_of_unlisted : ∀ ss : Byte, listedFc ss = false → decodeGroupFc ss = .invalidSecondaryFc ss := by
  decide +kernel

theorem decodePrimary_of_fallback : ∀ op : Byte, isFallbackByte op = true → decodePrimary op = .nopFallback op := by
  decide +kernel

theorem not_group_of_fallback : ∀ op : Byte, isFallbackByte op = true → op ≠ 0xFE#8 ∧ op ≠ 0xFC#8 := by
  decide +kernel

/-- What group 0xFE gives: a well-formed row, read back from its own two bytes. -/
theorem decodeGroupFe_spec : ∀ ss : Byte, (decodeGroupFe ss).wf = true ∧ encode (decodeGroupFe ss) = [0xFE#8, ss] ∧
    (decodeGroupFe ss).endsBuffer = false := by
  decide +kernel

/-- What group 0xFC gives: a well-formed row, read back from its own two bytes. -/
theorem decodeGroupFc_spec : ∀ ss : Byte, (decodeGroupFc ss).wf = true ∧ encode (decodeGroupFc ss) = [0xFC#8, ss] ∧
    (decodeGroupFc ss).endsBuffer = false := by
  decide +kernel

/-- What a primary byte gives: a well-formed row, read back from its own byte. -/
theorem decodePrimary_spec : ∀ op : Byte, op ≠ 0xFE#8 → op ≠ 0xFC#8 → (decodePrimary op).wf = true ∧
    encode (decodePrimary op) = [op] ∧ (decodePrimary op).endsBuffer = false ∧
    (decodePrimary op).variant?.isSome = true := by
  decide +kernel

/-- Whatever a row appends is an entry the Decoder may emit, of the row's own length. -/
theorem emitted_of_variant {i : Instr} {v : Variant} (h : i.variant? = some v) :
    v.emitted = true ∧ v.byteLength = (encode i).length := by
  cases i <;> simp only [Instr.variant?, Option.some.injEq, reduceCtorEq] at h <;> subst h <;> exact ⟨rfl, rfl⟩

/-- The cases of a decode: no byte; a group byte alone; a group byte and its secondary; a primary byte. -/
theorem decode_cons (op : Byte) (rest : List Byte) :
    (op = 0xFE#8 ∧ rest = [] ∧ decode (op :: rest) = .ok (.truncatedFe, 1)) ∨
    (op = 0xFC#8 ∧ rest = [] ∧ decode (op :: rest) = .ok (.truncatedFc, 1)) ∨
    (∃ ss rest', op = 0xFE#8 ∧ rest = ss :: rest' ∧ decode (op :: rest) = .ok (decodeGroupFe ss, 2)) ∨
    (∃ ss rest', op = 0xFC#8 ∧ rest = ss :: rest' ∧ decode (op :: rest) = .ok (decodeGroupFc ss, 2)) ∨
    (op ≠ 0xFE#8 ∧ op ≠ 0xFC#8 ∧ decode (op :: rest) = .ok (decodePrimary op, 1)) := by
  by_cases h1 : op = 0xFE#8
  · subst h1; cases rest <;> simp [decode]
  · by_cases h2 : op = 0xFC#8
    · subst h2; cases rest <;> simp [decode]
    · simp [decode, h1, h2]

/-- A row that is appended is the row its entry runs, up to the fallback's byte, which the entry does not keep. -/
theorem incrementRow_variant (r : Reg) :
    (∀ i, incrementRow r = some i → i.variant? = some (.increment r)) ∧
    (∀ i, decrementRow r = some i → i.variant? = some (.decrement r)) := by
  rcases r with c | v
  · cases c <;> simp [incrementRow, decrementRow] <;> (first | rfl | constructor <;> rfl)
  · cases v <;> simp [incrementRow, decrementRow] <;> (first | rfl | constructor <;> rfl)

end Sys2Proof
end

