-- ==== Sys2Proof/Laws/State.lean ====
section
/-! SUPPORT. One lemma for each field of State under each update of it. -/

namespace Sys2Proof.Machine

variable (s : State)

/-- LOAD's loop over the nine flags leaves every one false. -/
@[simp] theorem clearAll_eq_clear (g : Flags) : g.clearAll = .clear := rfl

@[simp] theorem setRegs_regs (f : Regs) : (s.setRegs f).regs = f := rfl
@[simp] theorem setRegs_flags (f : Regs) : (s.setRegs f).flags = s.flags := rfl
@[simp] theorem setRegs_buf (f : Regs) : (s.setRegs f).buf = s.buf := rfl
@[simp] theorem setRegs_n (f : Regs) : (s.setRegs f).n = s.n := rfl
@[simp] theorem setRegs_dp (f : Regs) : (s.setRegs f).dp = s.dp := rfl
@[simp] theorem setRegs_seq (f : Regs) : (s.setRegs f).seq = s.seq := rfl
@[simp] theorem setRegs_phase (f : Regs) : (s.setRegs f).phase = s.phase := rfl
@[simp] theorem setRegs_xp (f : Regs) : (s.setRegs f).xp = s.xp := rfl
@[simp] theorem setRegs_record (f : Regs) : (s.setRegs f).record = s.record := rfl
@[simp] theorem setRegs_commands (f : Regs) : (s.setRegs f).commands = s.commands := rfl

@[simp] theorem setPhase_regs (p : Phase) : (s.setPhase p).regs = s.regs := rfl
@[simp] theorem setPhase_flags (p : Phase) : (s.setPhase p).flags = s.flags := rfl
@[simp] theorem setPhase_buf (p : Phase) : (s.setPhase p).buf = s.buf := rfl
@[simp] theorem setPhase_n (p : Phase) : (s.setPhase p).n = s.n := rfl
@[simp] theorem setPhase_dp (p : Phase) : (s.setPhase p).dp = s.dp := rfl
@[simp] theorem setPhase_seq (p : Phase) : (s.setPhase p).seq = s.seq := rfl
@[simp] theorem setPhase_phase (p : Phase) : (s.setPhase p).phase = p := rfl
@[simp] theorem setPhase_xp (p : Phase) : (s.setPhase p).xp = s.xp := rfl
@[simp] theorem setPhase_record (p : Phase) : (s.setPhase p).record = s.record := rfl
@[simp] theorem setPhase_commands (p : Phase) : (s.setPhase p).commands = s.commands := rfl

@[simp] theorem setCommands_regs (cs : List Command) : (s.setCommands cs).regs = s.regs := rfl
@[simp] theorem setCommands_flags (cs : List Command) : (s.setCommands cs).flags = s.flags := rfl
@[simp] theorem setCommands_buf (cs : List Command) : (s.setCommands cs).buf = s.buf := rfl
@[simp] theorem setCommands_n (cs : List Command) : (s.setCommands cs).n = s.n := rfl
@[simp] theorem setCommands_dp (cs : List Command) : (s.setCommands cs).dp = s.dp := rfl
@[simp] theorem setCommands_seq (cs : List Command) : (s.setCommands cs).seq = s.seq := rfl
@[simp] theorem setCommands_phase (cs : List Command) : (s.setCommands cs).phase = s.phase := rfl
@[simp] theorem setCommands_xp (cs : List Command) : (s.setCommands cs).xp = s.xp := rfl
@[simp] theorem setCommands_record (cs : List Command) : (s.setCommands cs).record = s.record := rfl
@[simp] theorem setCommands_commands (cs : List Command) : (s.setCommands cs).commands = cs := rfl

@[simp] theorem raiseDecodeFault_regs (code : FaultCode) (pos : Nat) (byte : Byte) : (s.raiseDecodeFault code pos byte).regs = s.regs := rfl
@[simp] theorem raiseDecodeFault_flags (code : FaultCode) (pos : Nat) (byte : Byte) : (s.raiseDecodeFault code pos byte).flags = s.flags := rfl
@[simp] theorem raiseDecodeFault_buf (code : FaultCode) (pos : Nat) (byte : Byte) : (s.raiseDecodeFault code pos byte).buf = s.buf := rfl
@[simp] theorem raiseDecodeFault_n (code : FaultCode) (pos : Nat) (byte : Byte) : (s.raiseDecodeFault code pos byte).n = s.n := rfl
@[simp] theorem raiseDecodeFault_dp (code : FaultCode) (pos : Nat) (byte : Byte) : (s.raiseDecodeFault code pos byte).dp = pos + 1 := rfl
@[simp] theorem raiseDecodeFault_seq (code : FaultCode) (pos : Nat) (byte : Byte) : (s.raiseDecodeFault code pos byte).seq = s.seq := rfl
@[simp] theorem raiseDecodeFault_phase (code : FaultCode) (pos : Nat) (byte : Byte) : (s.raiseDecodeFault code pos byte).phase = .faulted := rfl
@[simp] theorem raiseDecodeFault_xp (code : FaultCode) (pos : Nat) (byte : Byte) : (s.raiseDecodeFault code pos byte).xp = s.xp := rfl
@[simp] theorem raiseDecodeFault_record (code : FaultCode) (pos : Nat) (byte : Byte) : (s.raiseDecodeFault code pos byte).record = ⟨code, pos, byte⟩ := rfl
@[simp] theorem raiseDecodeFault_commands (code : FaultCode) (pos : Nat) (byte : Byte) : (s.raiseDecodeFault code pos byte).commands = s.commands := rfl

@[simp] theorem appendDecoded_regs (v : Variant) (len : Nat) : (s.appendDecoded v len).regs = s.regs := rfl
@[simp] theorem appendDecoded_flags (v : Variant) (len : Nat) : (s.appendDecoded v len).flags = s.flags := rfl
@[simp] theorem appendDecoded_buf (v : Variant) (len : Nat) : (s.appendDecoded v len).buf = s.buf := rfl
@[simp] theorem appendDecoded_n (v : Variant) (len : Nat) : (s.appendDecoded v len).n = s.n := rfl
@[simp] theorem appendDecoded_dp (v : Variant) (len : Nat) : (s.appendDecoded v len).dp = s.dp + len := rfl
@[simp] theorem appendDecoded_seq (v : Variant) (len : Nat) : (s.appendDecoded v len).seq = s.seq ++ [v] := rfl
@[simp] theorem appendDecoded_phase (v : Variant) (len : Nat) : (s.appendDecoded v len).phase = if s.dp + len = s.n then .decoded else s.phase := rfl
@[simp] theorem appendDecoded_xp (v : Variant) (len : Nat) : (s.appendDecoded v len).xp = s.xp := rfl
@[simp] theorem appendDecoded_record (v : Variant) (len : Nat) : (s.appendDecoded v len).record = s.record := rfl
@[simp] theorem appendDecoded_commands (v : Variant) (len : Nat) : (s.appendDecoded v len).commands = s.commands := rfl

@[simp] theorem advanceExecute_regs : s.advanceExecute.regs = s.regs := rfl
@[simp] theorem advanceExecute_flags : s.advanceExecute.flags = s.flags := rfl
@[simp] theorem advanceExecute_buf : s.advanceExecute.buf = s.buf := rfl
@[simp] theorem advanceExecute_n : s.advanceExecute.n = s.n := rfl
@[simp] theorem advanceExecute_dp : s.advanceExecute.dp = s.dp := rfl
@[simp] theorem advanceExecute_seq : s.advanceExecute.seq = s.seq := rfl
@[simp] theorem advanceExecute_phase : s.advanceExecute.phase = if s.xp + 1 = s.seq.length then .executed else s.phase := rfl
@[simp] theorem advanceExecute_xp : s.advanceExecute.xp = s.xp + 1 := rfl
@[simp] theorem advanceExecute_record : s.advanceExecute.record = s.record := rfl
@[simp] theorem advanceExecute_commands : s.advanceExecute.commands = s.commands := rfl

@[simp] theorem increment_regs (r : Reg) : (s.increment r).regs = incrementReg r s.regs := rfl
@[simp] theorem increment_flags (r : Reg) : (s.increment r).flags = s.flags := rfl
@[simp] theorem increment_buf (r : Reg) : (s.increment r).buf = s.buf := rfl
@[simp] theorem increment_n (r : Reg) : (s.increment r).n = s.n := rfl
@[simp] theorem increment_dp (r : Reg) : (s.increment r).dp = s.dp := rfl
@[simp] theorem increment_seq (r : Reg) : (s.increment r).seq = s.seq := rfl
@[simp] theorem increment_phase (r : Reg) : (s.increment r).phase = s.phase := rfl
@[simp] theorem increment_xp (r : Reg) : (s.increment r).xp = s.xp := rfl
@[simp] theorem increment_record (r : Reg) : (s.increment r).record = s.record := rfl
@[simp] theorem increment_commands (r : Reg) : (s.increment r).commands = s.commands := rfl

@[simp] theorem decrement_regs (r : Reg) : (s.decrement r).regs = decrementReg r s.regs := rfl
@[simp] theorem decrement_flags (r : Reg) : (s.decrement r).flags = s.flags := rfl
@[simp] theorem decrement_buf (r : Reg) : (s.decrement r).buf = s.buf := rfl
@[simp] theorem decrement_n (r : Reg) : (s.decrement r).n = s.n := rfl
@[simp] theorem decrement_dp (r : Reg) : (s.decrement r).dp = s.dp := rfl
@[simp] theorem decrement_seq (r : Reg) : (s.decrement r).seq = s.seq := rfl
@[simp] theorem decrement_phase (r : Reg) : (s.decrement r).phase = s.phase := rfl
@[simp] theorem decrement_xp (r : Reg) : (s.decrement r).xp = s.xp := rfl
@[simp] theorem decrement_record (r : Reg) : (s.decrement r).record = s.record := rfl
@[simp] theorem decrement_commands (r : Reg) : (s.decrement r).commands = s.commands := rfl

@[simp] theorem loadBytes_regs (bytes : List Byte) : (s.loadBytes bytes).regs = .zero := rfl
@[simp] theorem loadBytes_flags (bytes : List Byte) : (s.loadBytes bytes).flags = .clear := rfl
@[simp] theorem loadBytes_buf (bytes : List Byte) : (s.loadBytes bytes).buf = Memory.ofBytes bytes := rfl
@[simp] theorem loadBytes_n (bytes : List Byte) : (s.loadBytes bytes).n = bytes.length := rfl
@[simp] theorem loadBytes_dp (bytes : List Byte) : (s.loadBytes bytes).dp = 0 := rfl
@[simp] theorem loadBytes_seq (bytes : List Byte) : (s.loadBytes bytes).seq = [] := rfl
@[simp] theorem loadBytes_phase (bytes : List Byte) : (s.loadBytes bytes).phase = .idle := rfl
@[simp] theorem loadBytes_xp (bytes : List Byte) : (s.loadBytes bytes).xp = 0 := rfl
@[simp] theorem loadBytes_record (bytes : List Byte) : (s.loadBytes bytes).record = .clear := rfl
@[simp] theorem loadBytes_commands (bytes : List Byte) : (s.loadBytes bytes).commands = s.commands := rfl

end Sys2Proof.Machine
end

