-- ==== Sys2Proof/Laws/Memory.lean ====
section
/-! SUPPORT. The program buffer's laws: LOAD's cells are canonical and read as the LOAD bytes, and a dense buffer reads as
its byte list. -/

namespace Sys2Proof.Machine

theorem ofBytesFrom_wf (a : Nat) (bs : List Byte) : Memory.wf (Memory.ofBytesFrom a bs) = true := by
  induction bs generalizing a with
  | nil => rfl
  | cons b bs ih =>
    cases bs with
    | nil => rfl
    | cons b' bs => simpa [Memory.ofBytesFrom, Memory.wf] using ih (a + 1)

/-- The one operation that writes memory makes it canonical. -/
theorem ofBytes_wf (bs : List Byte) : Memory.wf (Memory.ofBytes bs) = true := ofBytesFrom_wf 0 bs

theorem reset_memory_wf : Memory.wf State.reset.buf = true := rfl

/-- LOAD leaves the buffer in canonical form, and no other update of the state writes it. -/
theorem loadBytes_memory_wf (s : State) (bs : List Byte) : Memory.wf (s.loadBytes bs).buf = true := ofBytes_wf bs

theorem ofBytesFrom_addresses (a : Nat) (bs : List Byte) :
    (Memory.ofBytesFrom a bs).map Prod.fst = List.range' a bs.length := by
  induction bs generalizing a with
  | nil => rfl
  | cons b bs ih => simp [Memory.ofBytesFrom, ih, List.range'_succ]

theorem ofBytes_addresses (bs : List Byte) : (Memory.ofBytes bs).map Prod.fst = List.range bs.length := by
  simp [Memory.ofBytes, ofBytesFrom_addresses, List.range_eq_range']

theorem ofBytesFrom_bytes (a : Nat) (bs : List Byte) : (Memory.ofBytesFrom a bs).bytes = bs := by
  induction bs generalizing a with
  | nil => rfl
  | cons b bs ih => simpa [Memory.ofBytesFrom, Memory.bytes] using ih (a + 1)

@[simp] theorem ofBytes_bytes (bs : List Byte) : (Memory.ofBytes bs).bytes = bs := ofBytesFrom_bytes 0 bs

/-- Cells at consecutive addresses read as their bytes by position. -/
theorem read_dense (m : Memory) (a k : Nat) (h : m.map Prod.fst = List.range' a m.length) :
    Memory.read m (a + k) = m.bytes[k]? := by
  induction m generalizing a k with
  | nil => rfl
  | cons c m ih =>
    obtain ⟨c1, c2⟩ := c
    simp only [List.map_cons, List.length_cons, List.range'_succ, List.cons.injEq] at h
    obtain ⟨rfl, h⟩ := h
    cases k with
    | zero => simp [Memory.read, Memory.bytes]
    | succ k =>
      have := ih (c1 + 1) k h
      rw [show c1 + (k + 1) = c1 + 1 + k by omega]
      simpa [Memory.read, Memory.bytes, show c1 ≠ c1 + 1 + k by omega] using this

/-- A dense buffer has `N` bytes. -/
theorem bytes_length_of_dense {s : State} (h : s.buf.map Prod.fst = List.range s.n) : s.bytes.length = s.n := by
  simpa [State.bytes, Memory.bytes] using congrArg List.length h

/-- `MemRead` of a dense buffer is its byte list by position, at every address. -/
theorem memRead_of_dense {s : State} (h : s.buf.map Prod.fst = List.range s.n) (a : Nat) :
    memRead s a = s.bytes[a]? := by
  have hl : s.buf.length = s.n := by simpa using congrArg List.length h
  unfold memRead
  split
  · have := read_dense s.buf 0 a (by rw [h, hl, List.range_eq_range'])
    simpa [State.bytes] using this
  · have := bytes_length_of_dense h
    exact (List.getElem?_eq_none (by omega)).symm

end Sys2Proof.Machine
end

