-- ==== Sys2Proof/Laws/Operands.lean ====
section
/-! SUPPORT. The Register File's laws: reading after writing, in cells, in views and bit by bit, and what the four
arithmetic primitives come to. -/

namespace Sys2Proof

open Machine

@[simp] theorem get_set_same (c : Cell) (w : Word) (f : Regs) : c.get (c.set w f) = w := by
  cases c <;> rfl

theorem get_set_other {c d : Cell} (h : d ≠ c) (w : Word) (f : Regs) : d.get (c.set w f) = d.get f := by
  cases c <;> cases d <;> first | rfl | exact absurd rfl h

theorem get_zero (c : Cell) : c.get Regs.zero = 0 := by cases c <;> rfl

/-- Bit `k` of two joined bytes. -/
theorem joinBytes_getLsbD (hi lo : Byte) (k : Nat) :
    (joinBytes hi lo).getLsbD k = if k < 8 then lo.getLsbD k else hi.getLsbD (k - 8) := by
  unfold joinBytes
  rw [BitVec.getLsbD_append]

theorem lowByte_getLsbD (w : Word) (k : Nat) : (lowByte w).getLsbD k = (decide (k < 8) && w.getLsbD k) := by
  simp [lowByte, BitVec.getLsbD_extractLsb']

theorem highByte_getLsbD (w : Word) (k : Nat) : (highByte w).getLsbD k = (decide (k < 8) && w.getLsbD (8 + k)) := by
  simp [highByte, BitVec.getLsbD_extractLsb']

@[simp] theorem lowByte_joinBytes (hi lo : Byte) : lowByte (joinBytes hi lo) = lo := by
  apply BitVec.eq_of_getLsbD_eq
  intro k hk
  rw [lowByte_getLsbD, joinBytes_getLsbD]
  simp [hk]

@[simp] theorem highByte_joinBytes (hi lo : Byte) : highByte (joinBytes hi lo) = hi := by
  apply BitVec.eq_of_getLsbD_eq
  intro k hk
  rw [highByte_getLsbD, joinBytes_getLsbD]
  simp [hk]

theorem lowByte_toNat (w : Word) : (lowByte w).toNat = w.toNat % 256 := by
  simp [lowByte]

theorem highByte_toNat (w : Word) : (highByte w).toNat = w.toNat / 256 := by
  simp [highByte, Nat.shiftRight_eq_div_pow]; omega

@[simp] theorem view_get_set_same (v : View) (b : Byte) (f : Regs) : v.get (v.set b f) = b := by
  unfold View.get View.set; split <;> simp

/-- Writing one half of a parent keeps the other half (10_state.md R17). -/
theorem view_get_set_sibling {v u : View} (hp : u.parent = v.parent) (hh : u.isHigh ≠ v.isHigh) (b : Byte) (f : Regs) :
    u.get (v.set b f) = u.get f := by
  unfold View.get View.set
  rw [hp]
  cases hv : v.isHigh <;> cases hu : u.isHigh <;> simp_all

/-- Writing a view leaves every cell but its parent alone (10_state.md R17). -/
theorem get_view_set_other {v : View} {d : Cell} (h : d ≠ v.parent) (b : Byte) (f : Regs) :
    d.get (v.set b f) = d.get f := by
  unfold View.set; split <;> exact get_set_other h _ _

/-- A write reaches no cell but the view's home. -/
theorem get_write_other {r : Reg} {d : Cell} (h : d ≠ r.home) (x : Nat) (f : Regs) : d.get (r.write x f) = d.get f := by
  cases r with
  | cell c => exact get_set_other h _ _
  | view v => exact get_view_set_other h _ _

/-- `incrementReg` is the spec's `write(register, read(register) + 1 mod 2^width)` at either width
(40_execute_engine.md R73). -/
theorem incrementReg_eq (r : Reg) (f : Regs) : incrementReg r f = r.write ((r.read f + 1) % 2 ^ r.width) f := by
  cases r <;> rfl

/-- `decrementReg` is the symmetric subtraction at either width (40_execute_engine.md R74). -/
theorem decrementReg_eq (r : Reg) (f : Regs) :
    decrementReg r f = r.write ((((r.read f : Int) - 1) % 2 ^ r.width).toNat) f := by
  cases r <;> rfl

theorem read_lt (r : Reg) (f : Regs) : r.read f < 2 ^ r.width := by
  cases r with
  | cell c => exact (c.get f).isLt
  | view v => exact (v.get f).isLt

/-- The non-negative remainder of `x - 1` on numbers of the width. -/
theorem pred_mod_toNat (x w : Nat) (hw : 0 < w) : (((x : Int) - 1) % (w : Int)).toNat = (x + (w - 1)) % w := by
  have h : ((x : Int) - 1) % (w : Int) = ((x + (w - 1) : Nat) : Int) % (w : Int) := by
    have : ((x + (w - 1) : Nat) : Int) = (x : Int) - 1 + w := by omega
    rw [this, Int.add_emod_right]
  rw [h, ← Int.natCast_emod, Int.toNat_natCast]

end Sys2Proof
end

