-- ==== Sys2Proof/Laws/Step.lean ====
section
/-! SUPPORT. What a row, an entry, a command and a step can do, said once. -/

namespace Sys2Proof.Machine

/-- A row that is appended to `seq` writes the Register File by its entry's effect and nothing else. -/
theorem exec_of_variant {i : Instr} {v : Variant} (h : i.variant? = some v) (s : State) :
    exec i s = .next (s.setRegs (v.regEffect s.regs)) := by
  cases i <;> simp only [Instr.variant?, Option.some.injEq, reduceCtorEq] at h <;> subst h <;> rfl

/-- A fault row takes a decode fault at `dp`. -/
theorem exec_of_fault {i : Instr} (h : i.variant? = none) (s : State) :
    ∃ code byte, code ≠ FaultCode.none ∧ exec i s = .next (s.raiseDecodeFault code s.dp byte) := by
  cases i <;> simp only [Instr.variant?, reduceCtorEq] at h
  case invalidSecondaryFe ss => exact ⟨.invalidSecondary, ss, nofun, rfl⟩
  case invalidSecondaryFc ss => exact ⟨.invalidSecondary, ss, nofun, rfl⟩
  case truncatedFe => exact ⟨.truncated, 0#8, nofun, rfl⟩
  case truncatedFc => exact ⟨.truncated, 0#8, nofun, rfl⟩

/-- Apply of any entry writes the Register File by the entry's effect and nothing else (40_execute_engine.md R70). -/
theorem applyVariant_eq (v : Variant) (s : State) : applyVariant v s = .next (s.setRegs (v.regEffect s.regs)) := by
  cases v with
  | increment r =>
    simp only [applyVariant]
    split
    · next i hi => exact exec_of_variant ((incrementRow_variant r).1 i hi) s
    · simp [applyUnencodedIncrement, State.increment, Variant.regEffect, incrementReg_eq]
  | decrement r =>
    simp only [applyVariant]
    split
    · next i hi => exact exec_of_variant ((incrementRow_variant r).2 i hi) s
    · simp [applyUnencodedDecrement, State.decrement, Variant.regEffect, decrementReg_eq]
  | _ => rfl

/-- An entry's effect reaches no cell but the one it names (40_execute_engine.md R71). -/
theorem get_regEffect_other {v : Variant} {c : Cell} (h : v.writes ≠ some c) (f : Regs) :
    c.get (v.regEffect f) = c.get f := by
  cases v with
  | increment r => exact get_write_other (fun e => h (by simp [Variant.writes, e])) _ _
  | decrement r => exact get_write_other (fun e => h (by simp [Variant.writes, e])) _ _
  | _ => rfl

/-- An execute step whose index is in the sequence. -/
theorem executeStep_eq {s : State} {v : Variant} (h : s.seq[s.xp]? = some v) :
    executeStep s = .next (s.setRegs (v.regEffect s.regs)).advanceExecute := by
  simp [executeStep, h, applyVariant_eq, thenDo]

/-- What an execute step can do. -/
theorem executeStep_cases {s t : State} (h : executeStep s = .next t) :
    ∃ v, s.seq[s.xp]? = some v ∧ t = (s.setRegs (v.regEffect s.regs)).advanceExecute := by
  cases hv : s.seq[s.xp]? with
  | none => simp [executeStep, hv] at h
  | some v => exact ⟨v, rfl, by simpa [executeStep_eq hv] using h.symm⟩

/-- What a fetch can read. -/
theorem fetch_cases {s : State} {bytes : List Byte} (h : fetch s = some bytes) :
    ∃ op, memRead s s.dp = some op ∧
      ((isGroupByte op = false ∧ bytes = [op]) ∨
       (isGroupByte op = true ∧ s.dp + 1 = s.n ∧ bytes = [op]) ∨
       ∃ ss, isGroupByte op = true ∧ s.dp + 1 ≠ s.n ∧ memRead s (s.dp + 1) = some ss ∧ bytes = [op, ss]) := by
  unfold fetch at h
  split at h
  · cases h
  · next op hop =>
    refine ⟨op, hop, ?_⟩
    split at h
    · next hg =>
      split at h
      · next hn => cases h; exact .inr (.inl ⟨hg, hn, rfl⟩)
      · next hn =>
        split at h
        · cases h
        · next ss hss => cases h; exact .inr (.inr ⟨ss, hg, hn, hss, rfl⟩)
    · next hg => cases h; exact .inl ⟨by simpa using hg, rfl⟩

/-- A read that answers is below `N`. -/
theorem lt_of_memRead {s : State} {a : Nat} {b : Byte} (h : memRead s a = some b) : a < s.n := by
  unfold memRead at h
  split at h
  · assumption
  · cases h

/-- What a decode step can do: append an entry and move past its bytes, or take a decode fault at `dp`. -/
theorem decodeStep_cases {s t : State} (h : decodeStep s = .next t) :
    ∃ bytes i len, fetch s = some bytes ∧ decode bytes = .ok (i, len) ∧
      ((∃ v, i.variant? = some v ∧ t = s.appendDecoded v len) ∨
       (i.variant? = none ∧ exec i s = .next t ∧
        ∃ code byte, code ≠ FaultCode.none ∧ t = s.raiseDecodeFault code s.dp byte)) := by
  unfold decodeStep at h
  split at h
  · cases h
  · next bytes hf =>
    split at h
    · cases h
    · next i len hd =>
      refine ⟨bytes, i, len, hf, hd, ?_⟩
      split at h
      · next v hv => exact .inl ⟨v, hv, by simpa using h.symm⟩
      · next hv =>
        obtain ⟨code, byte, hc, he⟩ := exec_of_fault hv s
        exact .inr ⟨hv, h, code, byte, hc, by simpa [he] using h.symm⟩

/-- What a host's turn can do: hold, load, start a pass, or use up a command that has no effect. -/
theorem hostTurn_cases {s t : State} (hq : s.phase.quiescent = true) (h : hostTurn s = .next t) :
    (s.commands = [] ∧ t = s) ∨
    ∃ c cs, s.commands = c :: cs ∧
      ((∃ bytes, c = .load bytes ∧ bytes.length ≤ Config.maxBufLen ∧ t = (s.setCommands cs).loadBytes bytes) ∨
       (c = .decode ∧ s.phase = .idle ∧ t = startDecode (s.setCommands cs)) ∨
       (c = .execute ∧ s.phase = .decoded ∧ t = startExecute (s.setCommands cs)) ∨
       ((c = .decode ∧ s.phase ≠ .idle ∨ c = .execute ∧ s.phase ≠ .decoded) ∧ t = s.setCommands cs)) := by
  unfold hostTurn at h
  split at h
  · next hc => exact .inl ⟨hc, by simpa using h.symm⟩
  · next c cs hc =>
    refine .inr ⟨c, cs, hc, ?_⟩
    cases c <;> cases hp : s.phase <;>
      simp_all [hostCommand, cmdDecode, cmdExecute, cmdLoad, Phase.quiescent] <;>
      (try split at h) <;> simp_all

/-- What a step can do, by the phase it is taken in. -/
theorem step_cases {s t : State} (h : step s = .next t) :
    (s.phase = .decoding ∧ decodeStep s = .next t) ∨ (s.phase = .executing ∧ executeStep s = .next t) ∨
    (s.phase.quiescent = true ∧ hostTurn s = .next t) := by
  unfold step at h
  cases hp : s.phase <;> simp_all [Phase.quiescent]

theorem step_of_decoding {s : State} (h : s.phase = .decoding) : step s = decodeStep s := by simp [step, h]

theorem step_of_executing {s : State} (h : s.phase = .executing) : step s = executeStep s := by simp [step, h]

theorem step_of_quiescent {s : State} (h : s.phase.quiescent = true) : step s = hostTurn s := by
  cases hp : s.phase <;> simp_all [step, Phase.quiescent]

end Sys2Proof.Machine
end

