-- ==== Sys2Proof/Laws/Passes.lean ====
section
/-! SUPPORT. The equations of the pure decode pass and execute pass. -/

namespace Sys2Proof.Machine

@[simp] theorem decodePass_nil (pos : Nat) : decodePass pos [] = ([], .clear) := by rw [decodePass.eq_def]

/-- A primary byte: its entry, then the rest (30_encoding.md R53). -/
theorem decodePass_primary (pos : Nat) {op : Byte} (rest : List Byte) (h : isGroupByte op = false) :
    decodePass pos (op :: rest) =
      (((decodePrimary op).variant?.getD .noop) :: (decodePass (pos + 1) rest).1, (decodePass (pos + 1) rest).2) := by
  rw [decodePass.eq_def]; simp [h]

/-- A group byte at the end (60_exceptions.md R113). -/
theorem decodePass_truncated (pos : Nat) {op : Byte} (h : isGroupByte op = true) :
    decodePass pos [op] = ([], ⟨.truncated, pos, 0#8⟩) := by
  rw [decodePass.eq_def]; simp [h]

/-- A group byte with a listed secondary byte: its entry, then the rest (30_encoding.md R53). -/
theorem decodePass_listed (pos : Nat) {op ss : Byte} {v : Variant} (rest : List Byte) (h : isGroupByte op = true)
    (hv : decodedVariant [op, ss] = some v) :
    decodePass pos (op :: ss :: rest) = (v :: (decodePass (pos + 2) rest).1, (decodePass (pos + 2) rest).2) := by
  rw [decodePass.eq_def]; simp [h, hv]

/-- A group byte with an unlisted secondary byte (60_exceptions.md R114). -/
theorem decodePass_unlisted (pos : Nat) {op ss : Byte} (rest : List Byte) (h : isGroupByte op = true)
    (hv : decodedVariant [op, ss] = none) :
    decodePass pos (op :: ss :: rest) = ([], ⟨.invalidSecondary, pos, ss⟩) := by
  rw [decodePass.eq_def]; simp [h, hv]

@[simp] theorem executePass_nil (f : Regs) : executePass [] f = f := rfl

@[simp] theorem executePass_cons (v : Variant) (vs : List Variant) (f : Regs) :
    executePass (v :: vs) f = executePass vs (v.regEffect f) := rfl

/-- Applying one more entry at the end. -/
theorem executePass_append_one (vs : List Variant) (v : Variant) (f : Regs) :
    executePass (vs ++ [v]) f = v.regEffect (executePass vs f) := by
  simp [executePass]

@[simp] theorem runSteps_zero (s : State) : runSteps 0 s = .next s := rfl

theorem runSteps_succ {s t : State} (h : step s = .next t) (k : Nat) : runSteps (k + 1) s = runSteps k t := by
  simp [runSteps, h]

/-- Steps compose. -/
theorem runSteps_add {s t : State} (j k : Nat) (h : runSteps j s = .next t) : runSteps (j + k) s = runSteps k t := by
  induction j generalizing s with
  | zero => cases h; simp
  | succ j ih =>
    cases hs : step s with
    | next u =>
      rw [runSteps_succ hs] at h
      rw [show j + 1 + k = j + k + 1 by omega, runSteps_succ hs, ih h]
    | fault e => simp [runSteps, hs] at h
    | refused e => simp [runSteps, hs] at h

end Sys2Proof.Machine
end

