-- ==== Sys2Proof/Laws/PerInstr.lean ====
section
/-! SUPPORT. Statements about every row of the table as syntax, one lemma a constructor. -/

namespace Sys2Proof.Laws.RoundTrip

/-- Decoding a well-formed row's encoding, with whatever follows it, gives the row and its length. -/
def Statement (i : Instr) : Prop :=
  ∀ rest : List Byte, i.wf = true → (i.endsBuffer = true → rest = []) →
    decode (encode i ++ rest) = .ok (i, (encode i).length)

theorem nop : Statement .nop := fun _ _ _ => rfl

theorem incAx : Statement .incAx := fun _ _ _ => rfl

theorem incCx : Statement .incCx := fun _ _ _ => rfl

theorem incDx : Statement .incDx := fun _ _ _ => rfl

theorem incBx : Statement .incBx := fun _ _ _ => rfl

theorem incSi : Statement .incSi := fun _ _ _ => rfl

theorem incDi : Statement .incDi := fun _ _ _ => rfl

theorem decAx : Statement .decAx := fun _ _ _ => rfl

theorem decCx : Statement .decCx := fun _ _ _ => rfl

theorem decDx : Statement .decDx := fun _ _ _ => rfl

theorem decBx : Statement .decBx := fun _ _ _ => rfl

theorem incAl : Statement .incAl := fun _ _ _ => rfl

theorem incCl : Statement .incCl := fun _ _ _ => rfl

theorem incDl : Statement .incDl := fun _ _ _ => rfl

theorem incBl : Statement .incBl := fun _ _ _ => rfl

theorem decAl : Statement .decAl := fun _ _ _ => rfl

theorem decCl : Statement .decCl := fun _ _ _ => rfl

theorem decDl : Statement .decDl := fun _ _ _ => rfl

theorem decBl : Statement .decBl := fun _ _ _ => rfl

theorem decAh : Statement .decAh := fun _ _ _ => rfl

theorem decCh : Statement .decCh := fun _ _ _ => rfl

theorem decDh : Statement .decDh := fun _ _ _ => rfl

theorem decBh : Statement .decBh := fun _ _ _ => rfl

theorem incAh : Statement .incAh := fun _ _ _ => rfl

theorem incCh : Statement .incCh := fun _ _ _ => rfl

theorem incDh : Statement .incDh := fun _ _ _ => rfl

theorem incBh : Statement .incBh := fun _ _ _ => rfl

theorem invalidSecondaryFe (ss : Byte) : Statement (.invalidSecondaryFe ss) := by
  intro rest h _
  simp [encode, decode, decodeGroupFe_of_unlisted ss (by simpa [Instr.wf] using h)]

theorem invalidSecondaryFc (ss : Byte) : Statement (.invalidSecondaryFc ss) := by
  intro rest h _
  simp [encode, decode, decodeGroupFc_of_unlisted ss (by simpa [Instr.wf] using h)]

theorem truncatedFe : Statement .truncatedFe := fun _ _ h => by rw [h rfl]; rfl

theorem truncatedFc : Statement .truncatedFc := fun _ _ h => by rw [h rfl]; rfl

theorem nopFallback (op : Byte) : Statement (.nopFallback op) := by
  intro rest h _
  have h : isFallbackByte op = true := h
  simp [encode, decode, not_group_of_fallback op h, decodePrimary_of_fallback op h]

end Sys2Proof.Laws.RoundTrip
end

