-- ==== Sys2Proof/Tests/Slice0.lean ====
section
/-! SUPPORT. Smoke tests of WellFormed, words written out from the encodings of 30_encoding.md, one-step tests whose
expected results are those of 95_test_vectors.md, and a witness for the hypotheses of every statement that has any. -/

namespace Sys2Proof.Tests

open Sys2Proof.Machine

/-! ### Helpers -/

/-- The Register File that is zero but for one cell. -/
def only (c : Cell) (w : Word) : Regs := c.set w .zero

/-- Reset, with one cell set. -/
def withCell (c : Cell) (w : Word) : State := State.reset.setRegs (only c w)

/-- The Register File an outcome leaves. -/
def regsOf : Host.Outcome State Fault Refusal → Option Regs
  | .next t => some t.regs
  | .fault _ => none
  | .refused _ => none

/-- `PHASE`, `dp` and the fault record an outcome leaves. -/
def controlOf : Host.Outcome State Fault Refusal → Option (Phase × Nat × FaultRecord)
  | .next t => some (t.phase, t.dp, t.record)
  | .fault _ => none
  | .refused _ => none

/-- The middle of a decode pass: these bytes, the pointer at `dp`, these entries so far. -/
def decodingAt (bytes : List Byte) (dp : Nat) (seq : List Variant) : State :=
  { State.reset.loadBytes bytes with phase := .decoding, dp := dp, seq := seq }

/-- The middle of an execute pass over these entries. -/
def executingAt (seq : List Variant) (xp : Nat) : State :=
  { State.reset with seq := seq, xp := xp, phase := .executing }

/-- After the decode pass over 0x90 0xFE, which ends in a truncated group (vector V-D11). -/
def faultedState : State :=
  { State.reset.loadBytes [0x90#8, 0xFE#8] with
    phase := .faulted, dp := 2, seq := [.noop], record := ⟨.truncated, 1, 0#8⟩ }

/-! ### WellFormed refuses the ill-formed -/

theorem test_wf_refuses_listed_secondary_fe :
    ∀ ss ∈ [0xC0#8, 0xC3#8, 0xC8#8, 0xCF#8], (Instr.invalidSecondaryFe ss).wf = false := by decide

theorem test_wf_accepts_unlisted_secondary_fe :
    ∀ ss ∈ [0x00#8, 0xBF#8, 0xC4#8, 0xC7#8, 0xD0#8, 0xFF#8], (Instr.invalidSecondaryFe ss).wf = true := by decide

theorem test_wf_refuses_listed_secondary_fc :
    ∀ ss ∈ [0xC4#8, 0xC5#8, 0xC6#8, 0xC7#8], (Instr.invalidSecondaryFc ss).wf = false := by decide

theorem test_wf_accepts_unlisted_secondary_fc :
    ∀ ss ∈ [0x00#8, 0xC0#8, 0xC3#8, 0xC8#8, 0xFF#8], (Instr.invalidSecondaryFc ss).wf = true := by decide

theorem test_wf_refuses_listed_primary_as_fallback :
    ∀ op ∈ [0x40#8, 0x43#8, 0x46#8, 0x47#8, 0x48#8, 0x4B#8, 0x90#8, 0xFC#8, 0xFE#8],
      (Instr.nopFallback op).wf = false := by decide

theorem test_emitted_refuses_unencoded :
    ∀ v ∈ [Variant.stop, .increment (.cell .sp), .increment (.cell .ip), .decrement (.cell .si), .decrement (.cell .di),
      .moveRegReg 0 (.cell .ax) (.cell .bx), .moveRegMem 0 (.cell .ax) 0, .moveImmReg16 0 (.cell .ax),
      .moveImmReg8 0 (.view .al), .moveImmMem 0 0], v.emitted = false := by decide

/-! ### Words from the spec's encodings (30_encoding.md R55 to R62, first byte most significant) -/

theorem test_decode_nop : decodeTableWord 8 0x90 = some .nop := by decide

theorem test_decode_inc_r16 :
    [0x40, 0x41, 0x42, 0x43, 0x46, 0x47].map (decodeTableWord 8) =
      [some .incAx, some .incCx, some .incDx, some .incBx, some .incSi, some .incDi] := by decide

theorem test_decode_dec_r16 :
    [0x48, 0x49, 0x4A, 0x4B].map (decodeTableWord 8) = [some .decAx, some .decCx, some .decDx, some .decBx] := by decide

theorem test_decode_inc_low :
    [0xFEC0, 0xFEC1, 0xFEC2, 0xFEC3].map (decodeTableWord 16) =
      [some .incAl, some .incCl, some .incDl, some .incBl] := by decide

theorem test_decode_dec_low :
    [0xFEC8, 0xFEC9, 0xFECA, 0xFECB].map (decodeTableWord 16) =
      [some .decAl, some .decCl, some .decDl, some .decBl] := by decide

theorem test_decode_dec_high :
    [0xFECC, 0xFECD, 0xFECE, 0xFECF].map (decodeTableWord 16) =
      [some .decAh, some .decCh, some .decDh, some .decBh] := by decide

theorem test_decode_inc_high :
    [0xFCC4, 0xFCC5, 0xFCC6, 0xFCC7].map (decodeTableWord 16) =
      [some .incAh, some .incCh, some .incDh, some .incBh] := by decide

/-- The secondary bytes of vectors V-D6 to V-D9, and the bytes beside each listed range. -/
theorem test_decode_invalid_secondary :
    [0xFEC4, 0xFE40, 0xFEFE, 0xFEBF, 0xFED0].map (decodeTableWord 16) =
      [some (.invalidSecondaryFe 0xC4#8), some (.invalidSecondaryFe 0x40#8), some (.invalidSecondaryFe 0xFE#8),
        some (.invalidSecondaryFe 0xBF#8), some (.invalidSecondaryFe 0xD0#8)] ∧
    [0xFCC0, 0xFCC3, 0xFCC8].map (decodeTableWord 16) =
      [some (.invalidSecondaryFc 0xC0#8), some (.invalidSecondaryFc 0xC3#8), some (.invalidSecondaryFc 0xC8#8)] := by
  decide

/-- Source example S10 and vector V-D10. -/
theorem test_decode_truncated :
    decodeTableWord 8 0xFE = some .truncatedFe ∧ decodeTableWord 8 0xFC = some .truncatedFc := by decide

/-- The ends of the ranges of R58. -/
theorem test_decode_fallback :
    ∀ op ∈ [0x00, 0x3F, 0x44, 0x45, 0x4C, 0x8F, 0x91, 0xFB, 0xFD, 0xFF],
      decodeTableWord 8 op = some (.nopFallback (BitVec.ofNat 8 op)) := by decide

theorem test_encode_of_each_family :
    encode .incDi = [0x47#8] ∧ encode .decBx = [0x4B#8] ∧ encode .incBl = [0xFE#8, 0xC3#8] ∧
    encode .incAh = [0xFC#8, 0xC4#8] ∧ encode .decBh = [0xFE#8, 0xCF#8] ∧ encode .nop = [0x90#8] := by decide

/-! ### One instruction each (95_test_vectors.md sections 2.2 to 2.4) -/

/-- V-N1. -/
theorem test_nop : exec .nop (withCell .ax 0x1234) = .next (withCell .ax 0x1234) := rfl

/-- V-N2: 0x44 is no INC SP. -/
theorem test_fallback : exec (.nopFallback 0x44#8) State.reset = .next State.reset := rfl

/-- V-W2. -/
theorem test_incAx_signed : regsOf (exec .incAx (withCell .ax 0x7FFF)) = some (only .ax 0x8000) := by decide

/-- V-W3. -/
theorem test_incAx_wraps : regsOf (exec .incAx (withCell .ax 0xFFFF)) = some (only .ax 0x0000) := by decide

/-- V-W4. -/
theorem test_incCx_carries_inside : regsOf (exec .incCx (withCell .cx 0x00FF)) = some (only .cx 0x0100) := by decide

/-- R81. -/
theorem test_incDx : regsOf (exec .incDx (withCell .dx 0xFFFF)) = some (only .dx 0x0000) := by decide

/-- R82. -/
theorem test_incBx : regsOf (exec .incBx (withCell .bx 0x00FF)) = some (only .bx 0x0100) := by decide

/-- V-W5. -/
theorem test_incSi : regsOf (exec .incSi (withCell .si 0xFFFE)) = some (only .si 0xFFFF) := by decide

/-- V-W6. -/
theorem test_incDi_wraps : regsOf (exec .incDi (withCell .di 0xFFFF)) = some (only .di 0x0000) := by decide

/-- Source example S3 as 90_conflicts.md C1 corrects it. -/
theorem test_decAx_wraps : regsOf (exec .decAx (withCell .ax 0x0000)) = some (only .ax 0xFFFF) := by decide

/-- V-W9. -/
theorem test_decCx_to_zero : regsOf (exec .decCx (withCell .cx 0x0001)) = some (only .cx 0x0000) := by decide

/-- V-W10. -/
theorem test_decDx_borrows_inside : regsOf (exec .decDx (withCell .dx 0x0100)) = some (only .dx 0x00FF) := by decide

/-- V-W7. -/
theorem test_decBx_wraps : regsOf (exec .decBx (withCell .bx 0x0000)) = some (only .bx 0xFFFF) := by decide

/-- V-W8. -/
theorem test_decBx_signed : regsOf (exec .decBx (withCell .bx 0x8000)) = some (only .bx 0x7FFF) := by decide

/-- V-B1. -/
theorem test_incAl_no_carry : regsOf (exec .incAl (withCell .ax 0x12FF)) = some (only .ax 0x1200) := by decide

/-- R90. -/
theorem test_incCl : regsOf (exec .incCl (withCell .cx 0x12FF)) = some (only .cx 0x1200) := by decide

/-- V-B2. -/
theorem test_incDl_wraps : regsOf (exec .incDl (withCell .dx 0x00FF)) = some (only .dx 0x0000) := by decide

/-- V-B3. -/
theorem test_incBl_wraps : regsOf (exec .incBl (withCell .bx 0x00FF)) = some (only .bx 0x0000) := by decide

/-- V-B4. -/
theorem test_incAh_wraps : regsOf (exec .incAh (withCell .ax 0xFF34)) = some (only .ax 0x0034) := by decide

/-- V-B5. -/
theorem test_incCh_keeps_low : regsOf (exec .incCh (withCell .cx 0x7F80)) = some (only .cx 0x8080) := by decide

/-- R95. -/
theorem test_incDh : regsOf (exec .incDh (withCell .dx 0xFF34)) = some (only .dx 0x0034) := by decide

/-- R96. -/
theorem test_incBh : regsOf (exec .incBh (withCell .bx 0x7F80)) = some (only .bx 0x8080) := by decide

/-- V-B6. -/
theorem test_decAl_no_borrow : regsOf (exec .decAl (withCell .ax 0x1200)) = some (only .ax 0x12FF) := by decide

/-- V-B10. -/
theorem test_decCl_wraps : regsOf (exec .decCl (withCell .cx 0x0000)) = some (only .cx 0x00FF) := by decide

/-- R99. -/
theorem test_decDl : regsOf (exec .decDl (withCell .dx 0x1200)) = some (only .dx 0x12FF) := by decide

/-- R100. -/
theorem test_decBl : regsOf (exec .decBl (withCell .bx 0x1200)) = some (only .bx 0x12FF) := by decide

/-- V-B7. -/
theorem test_decAh_wraps : regsOf (exec .decAh (withCell .ax 0x0034)) = some (only .ax 0xFF34) := by decide

/-- R102. -/
theorem test_decCh : regsOf (exec .decCh (withCell .cx 0x0034)) = some (only .cx 0xFF34) := by decide

/-- V-B8. -/
theorem test_decDh : regsOf (exec .decDh (withCell .dx 0xABCD)) = some (only .dx 0xAACD) := by decide

/-- V-B9. -/
theorem test_decBh_wraps : regsOf (exec .decBh (withCell .bx 0x0000)) = some (only .bx 0xFF00) := by decide

/-! ### One step of a pass, and the controller (95_test_vectors.md sections 2.1, 2.5 and 3) -/

/-- The last decode step of P4: 0x41 0x41 0xFE 0xC5 0x43. -/
theorem test_step_invalid_secondary :
    controlOf (step (decodingAt [0x41#8, 0x41#8, 0xFE#8, 0xC5#8, 0x43#8] 2
      [.increment (.cell .cx), .increment (.cell .cx)])) =
      some (.faulted, 3, ⟨.invalidSecondary, 2, 0xC5#8⟩) := by decide

/-- V-D7. -/
theorem test_step_invalid_secondary_fc :
    controlOf (step (decodingAt [0xFC#8, 0xC0#8] 0 [])) = some (.faulted, 1, ⟨.invalidSecondary, 0, 0xC0#8⟩) := by
  decide

/-- V-D11. -/
theorem test_step_truncated : step (decodingAt [0x90#8, 0xFE#8] 1 [.noop]) = .next faultedState := rfl

/-- P5: the last decode step of 0x42 0xFC. -/
theorem test_step_truncated_fc :
    controlOf (step (decodingAt [0x42#8, 0xFC#8] 1 [.increment (.cell .dx)])) =
      some (.faulted, 2, ⟨.truncated, 1, 0#8⟩) := by decide

/-- V-D4, the decode step. -/
theorem test_step_decodes_group :
    step (decodingAt [0xFC#8, 0xC4#8] 0 []) =
      .next { decodingAt [0xFC#8, 0xC4#8] 2 [.increment (.view .ah)] with phase := .decoded } := rfl

/-- P2 as the entries its bytes decode to, and its end state. -/
theorem test_decodePass_p2 :
    executePass (decodePass 0 [0x48#8, 0xFE#8, 0xC0#8, 0xFC#8, 0xC4#8, 0xFE#8, 0xCB#8, 0xFE#8, 0xCF#8, 0x43#8,
      0x4A#8]).1 .zero = only .dx 0xFFFF := by decide

/-- V-C6: Stop does not end the pass. -/
theorem test_stop_goes_on :
    step (executingAt [.stop, .increment (.cell .ax)] 0) = .next (executingAt [.stop, .increment (.cell .ax)] 1) := rfl

/-- V-C1: EXECUTE before DECODE has no effect. -/
theorem test_execute_in_idle :
    hostCommand .execute (State.reset.loadBytes [0x40#8]) = .next (State.reset.loadBytes [0x40#8]) := rfl

/-- V-C4: DECODE in Faulted has no effect. -/
theorem test_decode_in_faulted : hostCommand .decode faultedState = .next faultedState := rfl

/-- What `withFetchWord` is for: the very next step after reset runs the word. -/
theorem test_withFetchWord :
    regsOf (step (State.reset.withFetchWord 16 0xFECF)) = some (only .bx 0xFF00) ∧
    controlOf (step (State.reset.withFetchWord 16 0xFE00)) = some (.faulted, 1, ⟨.invalidSecondary, 0, 0x00#8⟩) := by
  decide

/-- V-D12: nothing of the entries before a fault is executed. -/
theorem test_decodePass_stops_at_fault :
    decodePass 0 [0x41#8, 0xFE#8, 0x41#8] = ([.increment (.cell .cx)], ⟨.invalidSecondary, 1, 0x41#8⟩) := by decide

/-! ### Witnesses: states and operands that meet each statement's hypotheses -/

theorem witness_LoadResetsEveryField :
    State.reset.phase.quiescent = true ∧ ([] : List Byte).length ≤ Config.maxBufLen := by
  simp [State.reset, Phase.quiescent]

theorem witness_OverlongLoadHasNoStep :
    State.reset.phase.quiescent = true ∧ Config.maxBufLen < (List.replicate (Config.maxBufLen + 1) 0#8).length := by
  simp [State.reset, Phase.quiescent]

theorem witness_BufferHoldsLoadBytesUntilNextLoad :
    ((decodingAt [0x40#8, 0x41#8] 0 []).phase.quiescent = false ∧
      step (decodingAt [0x40#8, 0x41#8] 0 []) = .next (decodingAt [0x40#8, 0x41#8] 1 [.increment (.cell .ax)])) ∧
    ((executingAt [.noop, .noop] 0).phase.quiescent = false ∧
      step (executingAt [.noop, .noop] 0) = .next (executingAt [.noop, .noop] 1)) ∧
    (∀ bytes, Command.decode ≠ .load bytes) ∧
    hostCommand .decode (State.reset.loadBytes [0x40#8]) = .next (decodingAt [0x40#8] 0 []) :=
  ⟨⟨rfl, rfl⟩, ⟨rfl, rfl⟩, nofun, rfl⟩

theorem witness_OnlyALoadStepChangesTheBuffer :
    step (decodingAt [0x40#8, 0x41#8] 0 []) = .next (decodingAt [0x40#8, 0x41#8] 1 [.increment (.cell .ax)]) ∧
    step { faultedState with commands := [.load []] } = .next (faultedState.loadBytes []) := by
  refine ⟨rfl, ?_⟩
  simp [step, faultedState, hostTurn, hostCommand, cmdLoad, State.setCommands, State.loadBytes, State.reset]

theorem witness_ReadAfterWriteWrapsToWidth : View.ah ≠ View.al ∧ View.bl ≠ View.dh := by decide

theorem witness_IncrementAndDecrementWrap :
    (Reg.view .al).bitOf .ax 8 = none ∧ (Reg.view .ah).bitOf .ax 7 = none ∧ (Reg.cell .si).bitOf .di 0 = none := by
  decide

/-- 0x90, and the fallback's range ends. -/
theorem witness_NoopWritesNothing :
    (∀ op ∈ [0x00#8, 0x3F#8, 0x44#8, 0x45#8, 0x4C#8, 0x8F#8, 0x91#8, 0xFB#8, 0xFD#8, 0xFF#8],
      isFallbackByte op = true) ∧
    (executingAt [.noop] 0).phase = .executing ∧ (executingAt [.noop] 0).seq[(executingAt [.noop] 0).xp]? = some .noop :=
  ⟨by decide, rfl, rfl⟩

theorem witness_EveryRowKeepsItsFrame :
    (exec .incAl (withCell .ax 0x12FF) = .next (withCell .ax 0x1200) ∧
      Instr.incAl.variant? = some (.increment (.view .al)) ∧ (Variant.increment (.view .al)).writes ≠ some .bx) ∧
    exec .truncatedFe (decodingAt [0x90#8, 0xFE#8] 1 [.noop]) = .next faultedState ∧
    Instr.truncatedFe.variant? = none :=
  ⟨⟨rfl, rfl, by decide⟩, rfl, rfl⟩

theorem witness_FlagsAreNeitherWrittenNorRead :
    exec .decAx (withCell .ax 0) = .next (withCell .ax 0xFFFF) ∧
    ((executingAt [.noop, .noop] 0).phase.quiescent = false ∧ (executingAt [.noop, .noop] 0).flags = .clear ∧
      step (executingAt [.noop, .noop] 0) = .next (executingAt [.noop, .noop] 1)) ∧
    (∀ bytes, Command.execute ≠ .load bytes) ∧ State.reset.flags = .clear ∧
    hostCommand .execute State.reset = .next State.reset :=
  ⟨rfl, ⟨rfl, rfl, rfl⟩, nofun, rfl, rfl⟩

theorem witness_OnlyTheDecodePassReadsTheBuffer :
    (executingAt [.noop] 0).phase = .executing ∧ (∀ bytes, Command.execute ≠ .load bytes) ∧
    (decodingAt [0x40#8, 0x41#8] 0 []).phase = .decoding ∧
    step (decodingAt [0x40#8, 0x41#8] 0 []) = .next (decodingAt [0x40#8, 0x41#8] 1 [.increment (.cell .ax)]) :=
  ⟨rfl, nofun, rfl, rfl⟩

theorem witness_UnlistedPrimaryBytesAreNoop :
    ∀ op ∈ [0x00#8, 0x3F#8, 0x44#8, 0x45#8, 0x4C#8, 0x8F#8, 0x91#8, 0xFB#8, 0xFD#8, 0xFF#8],
      isFallbackByte op = true := by decide

theorem witness_FirstByteDecidesLength :
    (decode [0xFE#8, 0xC0#8, 0x40#8] = .ok (.incAl, 2) ∧ Instr.incAl.endsBuffer = false) ∧
    (decode [0x40#8] = .ok (.incAx, 1) ∧ Instr.incAx.endsBuffer = false) ∧
    decode [0xFC#8] = .ok (.truncatedFc, 1) ∧ Instr.truncatedFc.endsBuffer = true :=
  ⟨⟨rfl, rfl⟩, ⟨rfl, rfl⟩, rfl, rfl⟩

theorem witness_DecodeOfEncodeIsIdentity :
    (Instr.incAl.wf = true ∧ Instr.incAl.endsBuffer = false) ∧
    ((Instr.invalidSecondaryFe 0xC7#8).wf = true ∧ (Instr.nopFallback 0xFF#8).wf = true) ∧
    (Instr.truncatedFe.wf = true ∧ (Instr.truncatedFe.endsBuffer = true → ([] : List Byte) = [])) :=
  ⟨⟨rfl, rfl⟩, ⟨rfl, rfl⟩, rfl, fun _ => rfl⟩

theorem witness_EncodeOfDecodeIsTheBytesRead :
    decode [0xFE#8, 0xC0#8, 0x40#8] = .ok (.incAl, 2) ∧ Instr.incAl.variant? = some (.increment (.view .al)) ∧
    decode [0xFE#8] = .ok (.truncatedFe, 1) ∧ Instr.truncatedFe.endsBuffer = true := ⟨rfl, rfl, rfl, rfl⟩

theorem witness_PlacedTableWordRunsNext :
    ∀ i ∈ [Instr.nop, .incAx, .decBh, .invalidSecondaryFc 0xC0#8, .truncatedFe, .nopFallback 0x44#8], i.wf = true := by
  decide

theorem witness_DecodeStepRunsTheRowAtThePointer :
    ((decodingAt [0x41#8, 0xFE#8, 0xC0#8] 1 []).phase = .decoding ∧
      fetch (decodingAt [0x41#8, 0xFE#8, 0xC0#8] 1 []) = some [0xFE#8, 0xC0#8] ∧
      decode [0xFE#8, 0xC0#8] = .ok (.incAl, 2) ∧ Instr.incAl.variant? = some (.increment (.view .al))) ∧
    ((decodingAt [0x90#8, 0xFE#8] 1 [.noop]).phase = .decoding ∧
      fetch (decodingAt [0x90#8, 0xFE#8] 1 [.noop]) = some [0xFE#8] ∧
      decode [0xFE#8] = .ok (.truncatedFe, 1) ∧ Instr.truncatedFe.variant? = none) :=
  ⟨⟨rfl, rfl, rfl, rfl⟩, rfl, rfl, rfl, rfl⟩

theorem witness_PointerAdvancesByBytesConsumed :
    (decodingAt [0x40#8, 0x41#8] 0 []).phase = .decoding ∧
    step (decodingAt [0x40#8, 0x41#8] 0 []) = .next (decodingAt [0x40#8, 0x41#8] 1 [.increment (.cell .ax)]) ∧
    (decodingAt [0x40#8, 0x41#8] 1 [.increment (.cell .ax)]).phase ≠ .faulted :=
  ⟨rfl, rfl, nofun⟩

/-- The unlisted bytes beside each listed range, for both groups. -/
theorem witness_UnlistedSecondaryFaultsTheDecodePass :
    (∀ ss ∈ [0x00#8, 0xBF#8, 0xC4#8, 0xC7#8, 0xD0#8, 0xFF#8],
      (decodingAt [0xFE#8, ss] 0 []).phase = .decoding ∧ memRead (decodingAt [0xFE#8, ss] 0 []) 0 = some 0xFE#8 ∧
      memRead (decodingAt [0xFE#8, ss] 0 []) 1 = some ss ∧ listedFe ss = false) ∧
    ∀ ss ∈ [0x00#8, 0xC3#8, 0xC8#8, 0xFF#8],
      (decodingAt [0xFC#8, ss] 0 []).phase = .decoding ∧ memRead (decodingAt [0xFC#8, ss] 0 []) 0 = some 0xFC#8 ∧
      memRead (decodingAt [0xFC#8, ss] 0 []) 1 = some ss ∧ listedFc ss = false := by decide

theorem witness_GroupByteAtTheEndIsTruncated :
    ∀ g ∈ [0xFE#8, 0xFC#8],
      (decodingAt [0x90#8, g] 1 [.noop]).phase = .decoding ∧ memRead (decodingAt [0x90#8, g] 1 [.noop]) 1 = some g ∧
      (decodingAt [0x90#8, g] 1 [.noop]).dp + 1 = (decodingAt [0x90#8, g] 1 [.noop]).n ∧
      (g = 0xFE#8 ∨ g = 0xFC#8) := by decide

theorem witness_DecodePassComputesTheDecoding :
    (decodingAt [0x90#8, 0xFE#8] 0 []).phase = .decoding ∧
    (decodingAt [0x90#8, 0xFE#8] 0 []).buf.map Prod.fst = List.range (decodingAt [0x90#8, 0xFE#8] 0 []).n ∧
    (decodingAt [0x90#8, 0xFE#8] 0 []).dp < (decodingAt [0x90#8, 0xFE#8] 0 []).n ∧
    (decodingAt [0x90#8, 0xFE#8] 0 []).record = .clear := by decide

theorem witness_DecodingDependsOnTheBufferAlone :
    DecodeAgree (decodingAt [0x90#8, 0xFE#8] 0 []) ((decodingAt [0x90#8, 0xFE#8] 0 []).setRegs (only .ax 7)) ∧
    (decodingAt [0x90#8, 0xFE#8] 0 []).phase = .decoding ∧ (decodingAt [0x90#8, 0xFE#8] 0 []).commands = [] ∧
    ((decodingAt [0x90#8, 0xFE#8] 0 []).setRegs (only .ax 7)).commands = [] ∧
    runSteps 2 (decodingAt [0x90#8, 0xFE#8] 0 []) = .next faultedState :=
  ⟨⟨rfl, rfl, rfl, rfl, rfl, rfl⟩, rfl, rfl, rfl, rfl⟩

theorem witness_ExecuteStepRunsTheEntryAtTheIndex :
    (executingAt [.noop, .decrement (.view .bh)] 1).phase = .executing ∧
    (executingAt [.noop, .decrement (.view .bh)] 1).seq[1]? = some (.decrement (.view .bh)) ∧
    Instr.decBh.variant? = some (.decrement (.view .bh)) := ⟨rfl, rfl, rfl⟩

theorem witness_StopAndMovesHaveNoEncodingAndNoEffect :
    ∀ v ∈ [Variant.stop, .moveRegReg 1 (.cell .ax) (.cell .bx), .moveRegMem 1 (.cell .ax) 2, .moveImmReg16 3 (.cell .ax),
        .moveImmReg8 3 (.view .al), .moveImmMem 3 2],
      (executingAt [v] 0).phase = .executing ∧ (executingAt [v] 0).seq[(executingAt [v] 0).xp]? = some v := by decide

theorem witness_ExecuteStepWritesOnlyItsCell :
    (executingAt [.noop, .noop] 0).phase = .executing ∧
    step (executingAt [.noop, .noop] 0) = .next (executingAt [.noop, .noop] 1) ∧
    Variant.noop.writes ≠ some .ax := ⟨rfl, rfl, nofun⟩

theorem witness_ExecutePassHasNoFailurePath :
    (executingAt [.stop, .noop] 0).phase = .executing ∧ (executingAt [.stop, .noop] 0).xp < (executingAt [.stop, .noop] 0).seq.length := ⟨rfl, by decide⟩

theorem witness_ExecutePassAppliesEntriesInOrder :
    (executingAt [.increment (.cell .ax), .decrement (.view .al)] 0).phase = .executing ∧
    (executingAt [.increment (.cell .ax), .decrement (.view .al)] 0).xp <
      (executingAt [.increment (.cell .ax), .decrement (.view .al)] 0).seq.length ∧
    1 < (executingAt [.increment (.cell .ax), .decrement (.view .al)] 0).seq.length - 0 := by decide

theorem witness_EmptySequenceExecutesToItself :
    ((State.reset.setPhase .decoded).phase = .decoded ∧ (State.reset.setPhase .decoded).seq = []) ∧
    State.reset.phase = .idle := ⟨⟨rfl, rfl⟩, rfl⟩

/-- Both sides of LOAD's bound, in a quiescent phase, and the two phases of a pass. -/
theorem witness_HostCommandAcceptanceTable :
    (faultedState.phase = .faulted ∧ ([] : List Byte).length ≤ Config.maxBufLen ∧
      ¬ (List.replicate (Config.maxBufLen + 1) 0#8).length ≤ Config.maxBufLen) ∧
    (decodingAt [0x40#8] 0 []).phase = .decoding ∧ (executingAt [.noop] 0).phase = .executing :=
  ⟨⟨rfl, Nat.zero_le _, by simp⟩, rfl, rfl⟩

theorem witness_QuiescentPhasesWaitForTheHost :
    (∀ p ∈ [Phase.idle, .decoded, .executed, .faulted], (State.reset.setPhase p).phase.quiescent = true) ∧
    State.reset.commands = [] ∧ (State.reset.setCommands [.decode]).commands = [.decode] :=
  ⟨by decide, rfl, rfl⟩

theorem witness_PendingCommandsCannotDisturbAPass :
    (decodingAt [0x40#8] 0 []).phase.quiescent = false ∧ (executingAt [.noop] 0).phase.quiescent = false := ⟨rfl, rfl⟩

theorem witness_PassesNeverOverlap :
    ((decodingAt [0x90#8, 0xFE#8] 1 [.noop]).phase = .decoding ∧
      step (decodingAt [0x90#8, 0xFE#8] 1 [.noop]) = .next faultedState) ∧
    ((executingAt [.noop, .noop] 0).phase = .executing ∧
      step (executingAt [.noop, .noop] 0) = .next (executingAt [.noop, .noop] 1)) ∧
    (step { executingAt [.noop] 0 with phase := .decoded, commands := [.execute] } = .next (executingAt [.noop] 0) ∧
      (executingAt [.noop] 0).phase = .executing) ∧
    step { State.reset.loadBytes [0x40#8] with commands := [.decode] } = .next (decodingAt [0x40#8] 0 []) ∧
    (decodingAt [0x40#8] 0 []).phase = .decoding :=
  ⟨⟨rfl, rfl⟩, ⟨rfl, rfl⟩, ⟨rfl, rfl⟩, rfl, rfl⟩

theorem witness_OnlyLoadLeavesFaulted :
    faultedState.phase = .faulted ∧ step { faultedState with commands := [.execute] } = .next faultedState ∧
    step { faultedState with commands := [.load []] } = .next (faultedState.loadBytes []) := by
  refine ⟨rfl, rfl, ?_⟩
  simp [step, faultedState, hostTurn, hostCommand, cmdLoad, State.setCommands, State.loadBytes, State.reset]

/-- The invariant of a faulted state. -/
theorem witness_DecodeFaultsArePrecise : RunInvariant faultedState ∧ faultedState.phase = .faulted := by
  refine ⟨?_, rfl⟩
  constructor
  case controller =>
    show faultedState.xp = 0 ∧ faultedState.record.code ≠ .none ∧ faultedState.record.pos < faultedState.n ∧
      faultedState.dp = faultedState.record.pos + 1
    decide
  case sequence => rfl
  all_goals decide

/-- The invariant in the middle of an execute pass that has run one entry. -/
def midRun : State :=
  { State.reset.loadBytes [0x40#8, 0x90#8] with
    phase := .executing, dp := 2, seq := [.increment (.cell .ax), .noop], xp := 1, regs := only .ax 1 }

theorem midRun_inv : RunInvariant midRun := by
  constructor
  case controller =>
    show midRun.dp = midRun.n ∧ midRun.xp < midRun.seq.length ∧ midRun.record = .clear
    decide
  case sequence => rfl
  all_goals decide

theorem witness_EveryStepKeepsTheInvariant :
    RunInvariant midRun ∧ step midRun = .next { midRun with xp := 2, phase := .executed } ∧
    State.reset.n ≤ Config.maxBufLen ∧ step State.reset = .next State.reset :=
  ⟨midRun_inv, rfl, Nat.zero_le _, rfl⟩

theorem witness_StepsStopOnlyOnRefusedCommands : RunInvariant midRun ∧ RunInvariant faultedState :=
  ⟨midRun_inv, witness_DecodeFaultsArePrecise.1⟩

theorem witness_UnwrittenCellsStayZero : RunInvariant midRun ∧ Cell.cs ∈ unwrittenCells ∧ Cell.ip ∈ unwrittenCells :=
  ⟨midRun_inv, by decide, by decide⟩

theorem witness_EveryProgramRunsToItsEnd :
    (State.reset.setCommands [.load [], .decode, .execute]).phase.quiescent = true ∧
    ([] : List Byte).length ≤ Config.maxBufLen ∧
    (State.reset.setCommands [.load [], .decode, .execute]).commands = [.load [], .decode, .execute] :=
  ⟨rfl, Nat.zero_le _, rfl⟩

end Sys2Proof.Tests
end

section
/-! Proofs of the state family (10_state.md): the reset values, the Register File's views, the program buffer and the
Flag Set. -/

namespace Sys2Proof.Machine

/-! ### What a host command and a step of a pass can do -/

theorem cmdDecode_cases {s t : State} (h : cmdDecode s = .next t) : t = startDecode s ∨ t = s := by
  unfold cmdDecode at h
  split at h <;> cases h
  · exact .inl rfl
  all_goals exact .inr rfl

theorem cmdExecute_cases {s t : State} (h : cmdExecute s = .next t) : t = startExecute s ∨ t = s := by
  unfold cmdExecute at h
  split at h <;> cases h
  · exact .inl rfl
  all_goals exact .inr rfl

theorem cmdLoad_eq_next {bytes : List Byte} {s t : State} (h : cmdLoad bytes s = .next t) : t = s.loadBytes bytes := by
  unfold cmdLoad at h
  split at h <;> cases h
  rfl

/-- A command that has a step loads its bytes or moves PHASE and nothing else (10_state.md R31). -/
theorem hostCommand_cases {c : Command} {s t : State} (h : hostCommand c s = .next t) :
    (∃ bytes, c = .load bytes ∧ t = s.loadBytes bytes) ∨ ∃ p, t = s.setPhase p := by
  cases c with
  | load bytes =>
    refine .inl ⟨bytes, rfl, cmdLoad_eq_next ?_⟩
    simp only [hostCommand] at h
    split at h
    case h_5 | h_6 => cases h
    all_goals exact h
  | decode =>
    right
    obtain rfl | rfl := cmdDecode_cases h
    · exact ⟨_, rfl⟩
    · exact ⟨t.phase, rfl⟩
  | execute =>
    right
    obtain rfl | rfl := cmdExecute_cases h
    · exact ⟨_, rfl⟩
    · exact ⟨t.phase, rfl⟩
  | assemble source => cases h

/-- The fields that no step of a pass writes: BUF and `N` (10_state.md R26), the flags (R22) and the host's pending
commands. -/
theorem passStep_frame {s t : State} (hq : s.phase.quiescent = false) (h : step s = .next t) :
    t.n = s.n ∧ t.buf = s.buf ∧ t.flags = s.flags ∧ t.commands = s.commands := by
  obtain ⟨-, hd⟩ | ⟨-, he⟩ | ⟨hq', -⟩ := step_cases h
  · obtain ⟨_, _, _, -, -, ⟨v, -, rfl⟩ | ⟨-, -, code, byte, -, rfl⟩⟩ := decodeStep_cases hd
    · exact ⟨rfl, rfl, rfl, rfl⟩
    · exact ⟨rfl, rfl, rfl, rfl⟩
  · obtain ⟨v, -, rfl⟩ := executeStep_cases he
    exact ⟨rfl, rfl, rfl, rfl⟩
  · simp [hq] at hq'

/-! ### The program buffer -/

/-- `MemRead` depends on BUF and `N` alone. -/
theorem memRead_congr {s t : State} (hn : t.n = s.n) (hb : t.buf = s.buf) (a : Nat) : memRead t a = memRead s a := by
  simp [memRead, hn, hb]

theorem memRead_loadBytes (s : State) (bytes : List Byte) (a : Nat) : memRead (s.loadBytes bytes) a = bytes[a]? := by
  rw [memRead_of_dense (ofBytes_addresses bytes)]
  simp [State.bytes]

/-- Settles O4: neither a step of a pass nor a command but LOAD writes BUF or `N`, which are all that a read sees. -/
theorem bufferHoldsLoadBytesUntilNextLoad : Obligations.BufferHoldsLoadBytesUntilNextLoad := by
  refine ⟨fun s bytes a => ⟨rfl, memRead_loadBytes s bytes a⟩, fun s t hq h => ?_, fun c s t hc h => ?_⟩
  · obtain ⟨hn, hb, -, -⟩ := passStep_frame hq h
    exact ⟨hn, hb, memRead_congr hn hb⟩
  · obtain ⟨bytes, rfl, -⟩ | ⟨p, rfl⟩ := hostCommand_cases h
    · exact absurd rfl (hc bytes)
    · exact ⟨rfl, rfl, memRead_congr rfl rfl⟩

/-! ### The Flag Set -/

@[simp] theorem get_clear (f : Flag) : Flags.clear.get f = false := by cases f <;> rfl

/-- Settles O1: both the reset state and LOAD's state have the zero Register File and the clear Flag Set. -/
theorem resetZeroesRegistersAndFlags : Obligations.ResetZeroesRegistersAndFlags :=
  ⟨get_zero, get_clear, fun _ _ => ⟨get_zero, get_clear⟩⟩

/-- The state with another Flag Set. -/
def State.setFlags (s : State) (g : Flags) : State := { s with flags := g }

/-- An operation does the same after an update of the state as before it: it neither reads nor writes what the update
replaces. -/
def CommutesWith (u : State → State) (op : State → Host.Outcome State Fault Refusal) : Prop :=
  ∀ s, op (u s) = thenDo (op s) u

/-- A fault row's code and byte come from the row and not from the state. -/
theorem exec_of_fault_uniform {i : Instr} (h : i.variant? = none) :
    ∃ code byte, ∀ s, exec i s = .next (s.raiseDecodeFault code s.dp byte) := by
  cases i <;> simp only [Instr.variant?, reduceCtorEq] at h
  case invalidSecondaryFe ss => exact ⟨.invalidSecondary, ss, fun _ => rfl⟩
  case invalidSecondaryFc ss => exact ⟨.invalidSecondary, ss, fun _ => rfl⟩
  case truncatedFe => exact ⟨.truncated, 0#8, fun _ => rfl⟩
  case truncatedFc => exact ⟨.truncated, 0#8, fun _ => rfl⟩

theorem exec_flags {i : Instr} {s t : State} (h : exec i s = .next t) : t.flags = s.flags := by
  cases hv : i.variant? with
  | some v => rw [exec_of_variant hv] at h; cases h; rfl
  | none =>
    obtain ⟨code, byte, he⟩ := exec_of_fault_uniform hv
    rw [he] at h; cases h; rfl

section
variable (g : Flags)

theorem exec_commutesWith_setFlags (i : Instr) : CommutesWith (State.setFlags · g) (exec i) := by
  intro s
  cases hv : i.variant? with
  | some v => rw [exec_of_variant hv, exec_of_variant hv]; rfl
  | none =>
    obtain ⟨code, byte, he⟩ := exec_of_fault_uniform hv
    rw [he, he]; rfl

theorem decodeStep_commutesWith_setFlags : CommutesWith (State.setFlags · g) decodeStep := by
  intro s
  have hf : fetch (s.setFlags g) = fetch s := rfl
  unfold decodeStep
  rw [hf]
  cases fetch s with
  | none => rfl
  | some bytes =>
    dsimp only
    cases decode bytes with
    | error e => rfl
    | ok r =>
      dsimp only
      cases r.1.variant? with
      | some v => rfl
      | none => exact exec_commutesWith_setFlags g r.1 s

theorem executeStep_commutesWith_setFlags : CommutesWith (State.setFlags · g) executeStep := by
  intro s
  have hseq : (s.setFlags g).seq[(s.setFlags g).xp]? = s.seq[s.xp]? := rfl
  cases hv : s.seq[s.xp]? with
  | none => simp only [executeStep, hseq, hv]; rfl
  | some v => rw [executeStep_eq (hseq.trans hv), executeStep_eq hv]; rfl

theorem passStep_setFlags {s : State} (hq : s.phase.quiescent = false) :
    step (s.setFlags g) = thenDo (step s) (State.setFlags · g) := by
  cases hp : s.phase
  case decoding =>
    rw [step_of_decoding hp, step_of_decoding (s := s.setFlags g) hp]
    exact decodeStep_commutesWith_setFlags g s
  case executing =>
    rw [step_of_executing hp, step_of_executing (s := s.setFlags g) hp]
    exact executeStep_commutesWith_setFlags g s
  all_goals simp [hp, Phase.quiescent] at hq

theorem cmdDecode_commutesWith_setFlags : CommutesWith (State.setFlags · g) cmdDecode := by
  intro s
  have hp : (s.setFlags g).phase = s.phase := rfl
  unfold cmdDecode
  rw [hp]
  cases s.phase <;> rfl

theorem cmdExecute_commutesWith_setFlags : CommutesWith (State.setFlags · g) cmdExecute := by
  intro s
  have hp : (s.setFlags g).phase = s.phase := rfl
  unfold cmdExecute
  rw [hp]
  cases s.phase <;> rfl

theorem hostCommand_commutesWith_setFlags {c : Command} (hc : ∀ bytes, c ≠ .load bytes) :
    CommutesWith (State.setFlags · g) (hostCommand c) := by
  cases c with
  | load bytes => exact absurd rfl (hc bytes)
  | decode => exact cmdDecode_commutesWith_setFlags g
  | execute => exact cmdExecute_commutesWith_setFlags g
  | assemble source => exact fun _ => rfl

end

theorem hostCommand_keeps_flags_clear {c : Command} {s t : State} (hs : s.flags = .clear)
    (h : hostCommand c s = .next t) : t.flags = .clear := by
  obtain ⟨bytes, -, rfl⟩ | ⟨p, rfl⟩ := hostCommand_cases h
  · rfl
  · exact hs

/-- Settles O19: rows, steps of a pass and commands but LOAD commute with replacing the Flag Set, and LOAD clears it. -/
theorem flagsAreNeitherWrittenNorRead : Obligations.FlagsAreNeitherWrittenNorRead := by
  refine ⟨fun _ _ _ => exec_flags, fun i s g => exec_commutesWith_setFlags g i s, fun _ g => passStep_setFlags g,
    fun _ s g hc => hostCommand_commutesWith_setFlags g hc s, fun s t hq hs h => ?_,
    fun _ _ _ => hostCommand_keeps_flags_clear⟩
  obtain ⟨-, -, hf, -⟩ := passStep_frame hq h
  exact hf.trans hs

end Sys2Proof.Machine

namespace Sys2Proof

open Machine

/-! ### The Register File -/

theorem read_lowView {v : View} (h : v.isHigh = false) (f : Regs) :
    (Reg.view v).read f = (Reg.cell v.parent).read f % 256 := by
  simp [Reg.read, View.get, h, lowByte_toNat]

theorem read_highView {v : View} (h : v.isHigh = true) (f : Regs) :
    (Reg.view v).read f = (Reg.cell v.parent).read f / 256 := by
  simp [Reg.read, View.get, h, highByte_toNat]

/-- Settles O6: each pair of views is the low and the high byte of its parent. -/
theorem viewsReadBytesOfTheirParents : Obligations.ViewsReadBytesOfTheirParents := by
  refine fun f => ⟨fun c => rfl, fun p hp => ?_⟩
  simp only [List.mem_cons, List.not_mem_nil, or_false] at hp
  obtain rfl | rfl | rfl | rfl := hp <;> exact ⟨read_lowView rfl f, read_highView rfl f⟩

/-- A register view names bits of its home alone. -/
theorem bitOf_of_ne_home {r : Reg} {c : Cell} (h : c ≠ r.home) (k : Nat) : r.bitOf c k = none := by
  cases r with
  | cell d => exact if_neg fun e => h e.1.symm
  | view v => exact if_neg fun e => h e.symm

theorem getLsbD_cell_write (c : Cell) (x : Nat) (f : Regs) (k : Nat) :
    (c.get ((Reg.cell c).write x f)).getLsbD k = (decide (k < 16) && x.testBit k) := by
  simp [Reg.write, BitVec.getLsbD_ofNat]

/-- A write to a low view puts the byte below the parent's high byte. -/
theorem parent_get_set_low {v : View} (h : v.isHigh = false) (b : Byte) (f : Regs) :
    v.parent.get (v.set b f) = joinBytes (highByte (v.parent.get f)) b := by
  simp [View.set, h]

/-- A write to a high view puts the byte above the parent's low byte. -/
theorem parent_get_set_high {v : View} (h : v.isHigh = true) (b : Byte) (f : Regs) :
    v.parent.get (v.set b f) = joinBytes b (lowByte (v.parent.get f)) := by
  simp [View.set, h]

/-- Writing the low half: bits 7:0 are the byte's and the others the parent's own. -/
theorem getLsbD_parent_set_low {v : View} (h : v.isHigh = false) (b : Byte) (f : Regs) (k : Nat) :
    (v.parent.get (v.set b f)).getLsbD k = if k < 8 then b.getLsbD k else (v.parent.get f).getLsbD k := by
  rw [parent_get_set_low h, joinBytes_getLsbD, highByte_getLsbD]
  split
  · rfl
  · next hk =>
    rw [show 8 + (k - 8) = k by omega]
    by_cases hk' : k < 16
    · simp [show k - 8 < 8 by omega]
    · rw [BitVec.getLsbD_of_ge (v.parent.get f) k (by omega), Bool.and_false]

/-- Writing the high half: bits 15:8 are the byte's and the others the parent's own. -/
theorem getLsbD_parent_set_high {v : View} (h : v.isHigh = true) (b : Byte) (f : Regs) (k : Nat) :
    (v.parent.get (v.set b f)).getLsbD k =
      if 8 ≤ k ∧ k < 16 then b.getLsbD (k - 8) else (v.parent.get f).getLsbD k := by
  rw [parent_get_set_high h, joinBytes_getLsbD, lowByte_getLsbD]
  by_cases hk : k < 8
  · simp [hk]
  · by_cases hk' : k < 16
    · simp [hk, hk', show 8 ≤ k by omega]
    · simp [hk, hk', BitVec.getLsbD_of_ge _ k (show 16 ≤ k by omega), BitVec.getLsbD_of_ge b (k - 8) (by omega)]

/-- Settles O7: a cell that is not the view's home keeps every bit, and in the home the view's own bits are replaced. -/
theorem writeChangesExactlyNamedBits : Obligations.WriteChangesExactlyNamedBits := by
  intro r x f c k
  by_cases hc : c = r.home
  · subst hc
    cases r with
    | cell d =>
      rw [Reg.home, getLsbD_cell_write]
      by_cases hk : k < 16
      · simp [Reg.bitOf, hk]
      · simp [Reg.bitOf, hk, BitVec.getLsbD_of_ge _ k (show 16 ≤ k by omega)]
    | view v =>
      cases hv : v.isHigh with
      | false =>
        rw [Reg.home, Reg.write, getLsbD_parent_set_low hv, BitVec.getLsbD_ofNat]
        by_cases hk : k < 8 <;> simp [Reg.bitOf, hv, hk]
      | true =>
        rw [Reg.home, Reg.write, getLsbD_parent_set_high hv, BitVec.getLsbD_ofNat]
        by_cases hk : 8 ≤ k ∧ k < 16
        · simp [Reg.bitOf, hv, hk, show k - 8 < 8 by omega]
        · simp [Reg.bitOf, hv, hk]
  · rw [bitOf_of_ne_home hc, get_write_other hc]

theorem read_write_same (r : Reg) (x : Nat) (f : Regs) : r.read (r.write x f) = x % 2 ^ r.width := by
  cases r with
  | cell c => simp [Reg.read, Reg.write, Reg.width]
  | view v => simp [Reg.read, Reg.write, Reg.width]

/-- A view is fixed by its parent and the half it names. -/
theorem view_eq_of_parent_isHigh {u v : View} (hp : u.parent = v.parent) (hh : u.isHigh = v.isHigh) : u = v := by
  cases u <;> cases v <;> simp_all [View.parent, View.isHigh]

/-- Views of another parent are out of a write's reach. -/
theorem view_get_set_of_parent_ne {u v : View} (h : u.parent ≠ v.parent) (b : Byte) (f : Regs) :
    u.get (v.set b f) = u.get f := by
  simp [View.get, get_view_set_other h]

theorem view_get_set_other {u v : View} (h : u ≠ v) (b : Byte) (f : Regs) : u.get (v.set b f) = u.get f := by
  by_cases hp : u.parent = v.parent
  · exact view_get_set_sibling hp (fun hh => h (view_eq_of_parent_isHigh hp hh)) b f
  · exact view_get_set_of_parent_ne hp b f

/-- Settles O8: the view's byte or word is the value reduced, and a write to one view reaches no other. -/
theorem readAfterWriteWrapsToWidth : Obligations.ReadAfterWriteWrapsToWidth :=
  ⟨read_write_same, fun _ _ _ _ h => view_get_set_other h _ _⟩

end Sys2Proof
end

section
/-! Proofs of the memory family (20_memory.md): who reads and who writes the program buffer. -/

namespace Sys2Proof.Machine

/-! ### The fields that only a decode step, LOAD or the host's turn looks at -/

/-- An edit of the Flag Set, BUF and the host's pending commands. -/
def mapBystanders (fg : Flags → Flags) (fb : Memory → Memory) (fc : List Command → List Command) (s : State) : State :=
  { s with flags := fg s.flags, buf := fb s.buf, commands := fc s.commands }

section
variable (fg : Flags → Flags) (fb : Memory → Memory) (fc : List Command → List Command)

/-- A row reads the Register File or `dp`, and writes the Register File or a fault's fields. -/
theorem exec_commutesWith_mapBystanders (i : Instr) : CommutesWith (mapBystanders fg fb fc) (exec i) := by
  intro s
  cases hv : i.variant? with
  | some v =>
    rw [exec_of_variant hv, exec_of_variant hv]
    rfl
  | none =>
    obtain ⟨code, byte, he⟩ := exec_of_fault_uniform hv
    rw [he, he]
    rfl

/-- An execute step reads the Register File, `seq`, `xp` and PHASE, and writes no other field. -/
theorem executeStep_commutesWith_mapBystanders : CommutesWith (mapBystanders fg fb fc) executeStep := by
  intro s
  have hentry : (mapBystanders fg fb fc s).seq[(mapBystanders fg fb fc s).xp]? = s.seq[s.xp]? := rfl
  cases hv : s.seq[s.xp]? with
  | none =>
    simp only [executeStep, hentry, hv]
    rfl
  | some v =>
    rw [executeStep_eq (hentry.trans hv), executeStep_eq hv]
    rfl

theorem step_mapBystanders_of_executing {s : State} (hp : s.phase = .executing) :
    step (mapBystanders fg fb fc s) = thenDo (step s) (mapBystanders fg fb fc) := by
  have hp' : (mapBystanders fg fb fc s).phase = .executing := hp
  rw [step_of_executing hp, step_of_executing hp']
  exact executeStep_commutesWith_mapBystanders fg fb fc s

/-- A command but LOAD reads PHASE, `N` and the length of `seq`, and writes PHASE alone. -/
theorem hostCommand_commutesWith_mapBystanders {c : Command} (hc : ∀ bytes, c ≠ .load bytes) :
    CommutesWith (mapBystanders fg fb fc) (hostCommand c) := by
  intro s
  have hp : (mapBystanders fg fb fc s).phase = s.phase := rfl
  cases c with
  | load bytes => exact absurd rfl (hc bytes)
  | decode =>
    simp only [hostCommand, cmdDecode, hp]
    cases s.phase <;> rfl
  | execute =>
    simp only [hostCommand, cmdExecute, hp]
    cases s.phase <;> rfl
  | assemble source => rfl

end

/-! ### The program buffer -/

/-- Settles O20: rows, execute steps and commands but LOAD commute with replacing BUF, the edit of the bystanders that
keeps the flags and the commands; and a decode step, like every step of a pass, writes neither BUF nor `N`. -/
theorem onlyTheDecodePassReadsTheBuffer : Obligations.OnlyTheDecodePassReadsTheBuffer := by
  refine ⟨fun i s m => exec_commutesWith_mapBystanders id (fun _ => m) id i s,
    fun s m hp => step_mapBystanders_of_executing id (fun _ => m) id hp,
    fun c s m hc => hostCommand_commutesWith_mapBystanders id (fun _ => m) id hc s, fun s t hp h => ?_⟩
  have hq : s.phase.quiescent = false := by rw [hp]; rfl
  obtain ⟨hn, hb, -, -⟩ := passStep_frame hq h
  exact ⟨hb, hn, memRead_congr hn hb⟩

end Sys2Proof.Machine
end

section
/-! Proofs of the encoding family (30_encoding.md): the Decoder's maps, the length of an instruction and the pointer of a
decode step. -/

namespace Sys2Proof

open Machine

/-! ### What a table makes the Decoder append -/

/-- The Instructions a table's rows append, each beside the byte that stands for it. -/
def tableEntries (table : List (Byte × Instr)) : List (Byte × Variant) :=
  table.filterMap fun row => row.2.variant?.map (row.1, ·)

theorem mem_tableEntries_cons {b op : Byte} {i : Instr} {v : Variant} {table : List (Byte × Instr)} :
    (op, v) ∈ tableEntries ((b, i) :: table) ↔ (b = op ∧ i.variant? = some v) ∨ (op, v) ∈ tableEntries table := by
  cases h : i.variant? with
  | none => simp [tableEntries, h]
  | some w => simp [tableEntries, h, eq_comm]

theorem mem_keys_of_mem_tableEntries {op : Byte} {v : Variant} {table : List (Byte × Instr)}
    (h : (op, v) ∈ tableEntries table) : op ∈ table.map Prod.fst := by
  induction table with
  | nil => cases h
  | cons row table ih =>
    rcases mem_tableEntries_cons.mp h with ⟨rfl, -⟩ | h
    · exact List.mem_cons_self
    · exact List.mem_cons_of_mem _ (ih h)

/-- A lookup appends exactly the table's entries, where each byte is listed once and the row of an unlisted byte appends
something else. -/
theorem tableRow_appends_iff {table : List (Byte × Instr)} (hkeys : (table.map Prod.fst).Nodup) {dflt : Instr}
    {v : Variant} (hdflt : dflt.variant? ≠ some v) (op : Byte) :
    ((tableRow table op).getD dflt).variant? = some v ↔ (op, v) ∈ tableEntries table := by
  induction table with
  | nil => simpa [tableRow, tableEntries] using hdflt
  | cons row table ih =>
    obtain ⟨b, i⟩ := row
    obtain ⟨hb, hkeys⟩ := List.nodup_cons.mp hkeys
    rw [mem_tableEntries_cons]
    by_cases hop : b = op
    · subst hop
      have hrest : (b, v) ∉ tableEntries table := fun hm => hb (mem_keys_of_mem_tableEntries hm)
      simp [tableRow, hrest]
    · simp [tableRow, hop, ih hkeys]

/-! ### Group bytes and primary bytes -/

/-- What a group byte appends came from two bytes (30_encoding.md R59, R60). -/
theorem byteLength_of_group {op : Byte} (hg : isGroupByte op = true) {rest : List Byte} {v : Variant}
    (h : decodedVariant (op :: rest) = some v) : v.byteLength = 2 := by
  rcases decode_cons op rest with ⟨-, -, hd⟩ | ⟨-, -, hd⟩ | ⟨ss, _, -, -, hd⟩ | ⟨ss, _, -, -, hd⟩ | ⟨h1, h2, -⟩
  · simp [decodedVariant, hd, Instr.variant?] at h
  · simp [decodedVariant, hd, Instr.variant?] at h
  · rw [decodedVariant, hd] at h
    rw [(emitted_of_variant h).2, (decodeGroupFe_spec ss).2.1]
    rfl
  · rw [decodedVariant, hd] at h
    rw [(emitted_of_variant h).2, (decodeGroupFc_spec ss).2.1]
    rfl
  · simp [isGroupByte, h1, h2] at hg

theorem decodedVariant_primary {op : Byte} (hg : isGroupByte op = false) (rest : List Byte) :
    decodedVariant (op :: rest) = (decodePrimary op).variant? := by
  have hg : op ≠ 0xFE#8 ∧ op ≠ 0xFC#8 := by simpa [isGroupByte] using hg
  simp [decodedVariant, decode, hg]

theorem not_group_of_mem_primaryTable : ∀ op ∈ primaryTable.map Prod.fst, isGroupByte op = false := by decide

/-- The Instructions of one byte, other than the fallback's Noop, are those the primary table lists. -/
theorem decodedVariant_iff_mem_primaryTable (op : Byte) (rest : List Byte) {v : Variant} (hlen : v.byteLength = 1)
    (hnoop : v ≠ .noop) : decodedVariant (op :: rest) = some v ↔ (op, v) ∈ tableEntries primaryTable := by
  cases hg : isGroupByte op with
  | true =>
    refine iff_of_false (fun h => ?_) fun h => ?_
    · have := byteLength_of_group hg h
      omega
    · simp [not_group_of_mem_primaryTable op (mem_keys_of_mem_tableEntries h)] at hg
  | false =>
    rw [decodedVariant_primary hg]
    exact tableRow_appends_iff (by decide) (by simpa [Instr.variant?] using hnoop.symm) op

/-- Settles O21: an Increment of a cell is one byte long, so it stands in the primary table. -/
theorem primaryIncrementMap : Obligations.PrimaryIncrementMap := by
  intro op rest c
  rw [decodedVariant_iff_mem_primaryTable (v := .increment (.cell c)) op rest rfl (by simp)]
  simp [tableEntries, primaryTable, Instr.variant?]

/-- Settles O22: a Decrement of a cell is one byte long, so it stands in the primary table. -/
theorem primaryDecrementMap : Obligations.PrimaryDecrementMap := by
  intro op rest c
  rw [decodedVariant_iff_mem_primaryTable (v := .decrement (.cell c)) op rest rfl (by simp)]
  simp [tableEntries, primaryTable, Instr.variant?]

/-- Settles O23: the entries of `GROUP[0xFE]` are the twelve pairs, and the row of an unlisted byte appends nothing. -/
theorem groupFeMap : Obligations.GroupFeMap := by
  intro ss rest v
  have hdflt : (Instr.invalidSecondaryFe ss).variant? ≠ some v := by simp [Instr.variant?]
  exact tableRow_appends_iff (table := groupFeTable) (by decide) hdflt ss

/-- Settles O24: the entries of `GROUP[0xFC]` are the four pairs, and the row of an unlisted byte appends nothing. -/
theorem groupFcMap : Obligations.GroupFcMap := by
  intro ss rest v
  have hdflt : (Instr.invalidSecondaryFc ss).variant? ≠ some v := by simp [Instr.variant?]
  exact tableRow_appends_iff (table := groupFcTable) (by decide) hdflt ss

/-! ### The fallback -/

/-- The ranges of 30_encoding.md R58 leave out exactly the thirteen bytes of the opcode table of R55. -/
theorem isFallbackByte_iff (op : Byte) : isFallbackByte op = true ↔
    op ∉ [0x40#8, 0x41#8, 0x42#8, 0x43#8, 0x46#8, 0x47#8, 0x48#8, 0x49#8, 0x4A#8, 0x4B#8, 0x90#8, 0xFC#8, 0xFE#8] := by
  have := op.isLt
  simp [isFallbackByte, ← BitVec.toNat_inj]
  omega

theorem decode_fallback {op : Byte} (h : isFallbackByte op = true) (rest : List Byte) :
    decode (op :: rest) = .ok (.nopFallback op, 1) :=
  Laws.RoundTrip.nopFallback op rest h nofun

/-- Settles O25: a fallback byte decodes to its own row, which appends the Noop that 0x90 appends. -/
theorem unlistedPrimaryBytesAreNoop : Obligations.UnlistedPrimaryBytesAreNoop := by
  refine ⟨isFallbackByte_iff, by decide +kernel, fun op rest h => ?_⟩
  have hd := decode_fallback h rest
  have hv : decodedVariant (op :: rest) = some .noop := by rw [decodedVariant, hd]; rfl
  exact ⟨hd, hv, rfl⟩

/-! ### The length of an instruction -/

/-- Settles O26: in each case of a decode the first byte and the presence of a second fix the row's length. -/
theorem firstByteDecidesLength : Obligations.FirstByteDecidesLength := by
  intro op rest i len h
  rcases decode_cons op rest with ⟨rfl, rfl, hd⟩ | ⟨rfl, rfl, hd⟩ | ⟨ss, rest', rfl, rfl, hd⟩ |
    ⟨ss, rest', rfl, rfl, hd⟩ | ⟨h1, h2, hd⟩ <;> cases hd.symm.trans h
  · simp [Instr.endsBuffer]
  · simp [Instr.endsBuffer]
  · simp [(decodeGroupFe_spec ss).2.2]
  · simp [(decodeGroupFc_spec ss).2.2]
  · simp [(decodePrimary_spec op h1 h2).2.2.1, h1, h2]

/-- A decode takes no more bytes than stand there (30_encoding.md R53). -/
theorem decode_length_le {bytes : List Byte} {i : Instr} {len : Nat} (h : decode bytes = .ok (i, len)) :
    len ≤ bytes.length := by
  cases bytes with
  | nil => cases h
  | cons op rest =>
    rcases decode_cons op rest with ⟨-, rfl, hd⟩ | ⟨-, rfl, hd⟩ | ⟨_, _, -, rfl, hd⟩ | ⟨_, _, -, rfl, hd⟩ | ⟨-, -, hd⟩ <;>
      cases hd.symm.trans h <;> simp

theorem endsBuffer_of_variant {i : Instr} {v : Variant} (h : i.variant? = some v) : i.endsBuffer = false := by
  cases i
  case truncatedFe | truncatedFc => cases h
  all_goals rfl

end Sys2Proof

namespace Sys2Proof.Machine

/-! ### The pointer of a decode step -/

/-- A fetch starts with the opcode byte at `dp` and stays inside the buffer (30_encoding.md R53, R62). -/
theorem fetch_within {s : State} {bytes : List Byte} (h : fetch s = some bytes) :
    ∃ op rest, memRead s s.dp = some op ∧ bytes = op :: rest ∧ s.dp + bytes.length ≤ s.n := by
  obtain ⟨op, hop, ⟨-, rfl⟩ | ⟨-, -, rfl⟩ | ⟨ss, -, -, hss, rfl⟩⟩ := fetch_cases h
  · exact ⟨op, [], hop, rfl, lt_of_memRead hop⟩
  · exact ⟨op, [], hop, rfl, lt_of_memRead hop⟩
  · exact ⟨op, [ss], hop, rfl, lt_of_memRead hss⟩

/-- Settles O32: an entry's length is fixed by the byte at `dp` and is no more than the fetch read inside the buffer; a
fault leaves the pointer one past the byte at `dp`. -/
theorem pointerAdvancesByBytesConsumed : Obligations.PointerAdvancesByBytesConsumed := by
  intro s t hp h
  rw [step_of_decoding hp] at h
  obtain ⟨bytes, i, len, hf, hd, hcase⟩ := decodeStep_cases h
  obtain ⟨op, rest, hop, rfl, hin⟩ := fetch_within hf
  obtain ⟨v, hv, rfl⟩ | ⟨-, -, code, byte, -, rfl⟩ := hcase
  · have hlen : len = if op = 0xFE#8 ∨ op = 0xFC#8 then 2 else 1 :=
      (firstByteDecidesLength op rest i len hd).1 (endsBuffer_of_variant hv)
    have hpos : 0 < len := by rw [hlen]; split <;> decide
    have hle := decode_length_le hd
    simp only [appendDecoded_dp, appendDecoded_seq]
    exact ⟨by omega, by omega, fun _ => ⟨op, v, hop, rfl, by rw [hlen]⟩⟩
  · have hlt := lt_of_memRead hop
    simp only [raiseDecodeFault_dp, raiseDecodeFault_phase]
    exact ⟨by omega, by omega, fun hne => absurd rfl hne⟩

end Sys2Proof.Machine
end

section
/-! Proofs of the execute family (40_execute_engine.md): the arithmetic primitives, what an execute step writes, that it
never fails, and EXECUTE where there is nothing to run. -/

namespace Sys2Proof

open Machine

/-! ### The arithmetic primitives -/

/-- A write keeps every bit that the register does not name (10_state.md R17). -/
theorem getLsbD_write_of_bitOf_none {r : Reg} {c : Cell} {k : Nat} (h : r.bitOf c k = none) (x : Nat) (f : Regs) :
    (c.get (r.write x f)).getLsbD k = (c.get f).getLsbD k := by
  rw [writeChangesExactlyNamedBits r x f c k, h]

theorem read_incrementReg (r : Reg) (f : Regs) : r.read (incrementReg r f) = (r.read f + 1) % 2 ^ r.width := by
  rw [incrementReg_eq, read_write_same, Nat.mod_mod]

/-- The remainder that Decrement writes is a number of the register's width, so it reads back as itself. -/
theorem read_decrementReg (r : Reg) (f : Regs) :
    (r.read (decrementReg r f) : Int) = ((r.read f : Int) - 1) % 2 ^ r.width := by
  have hpos : (0 : Int) < 2 ^ r.width := by positivity
  rw [decrementReg_eq, read_write_same, Int.natCast_emod, Int.toNat_of_nonneg (Int.emod_nonneg _ hpos.ne')]
  push_cast
  exact Int.emod_emod_of_dvd _ dvd_rfl

/-- Settles O9: both primitives are a write of the wrapped number, which reads back and keeps the unnamed bits. -/
theorem incrementAndDecrementWrap : Obligations.IncrementAndDecrementWrap := by
  refine fun r f => ⟨by cases r <;> rfl, read_incrementReg r f, read_decrementReg r f, fun c k h => ?_⟩
  rw [incrementReg_eq, decrementReg_eq]
  exact ⟨getLsbD_write_of_bitOf_none h _ f, getLsbD_write_of_bitOf_none h _ f⟩

end Sys2Proof

namespace Sys2Proof.Machine

/-! ### The execute step -/

theorem advanceExecute_phase_of_executing {s : State} (hp : s.phase = .executing) :
    s.advanceExecute.phase = if s.xp + 1 = s.seq.length then .executed else .executing := by
  rw [advanceExecute_phase, hp]

/-- Settles O40: the step is the entry's effect on the Register File and the advance of `xp`. -/
theorem executeStepWritesOnlyItsCell : Obligations.ExecuteStepWritesOnlyItsCell := by
  intro s t hp h
  rw [step_of_executing hp] at h
  obtain ⟨v, hv, rfl⟩ := executeStep_cases h
  exact ⟨rfl, rfl, rfl, rfl, rfl, rfl, rfl, rfl, advanceExecute_phase_of_executing hp, v, hv,
    fun c hc => get_regEffect_other hc s.regs⟩

/-- While the index is in the sequence an execute step has a next state (40_execute_engine.md R75). -/
theorem executing_step_next {s : State} (hp : s.phase = .executing) (hx : s.xp < s.seq.length) :
    step s = .next (s.setRegs (s.seq[s.xp].regEffect s.regs)).advanceExecute := by
  rw [step_of_executing hp]
  exact executeStep_eq (List.getElem?_eq_getElem hx)

/-- The advance of `xp` leaves Executing at the sequence's end, so the index is in the sequence while it stays. -/
theorem xp_lt_of_advanceExecute_executing {s : State} (hx : s.xp < s.seq.length)
    (h : s.advanceExecute.phase = .executing) : s.advanceExecute.xp < s.advanceExecute.seq.length := by
  have hend : s.xp + 1 ≠ s.seq.length := fun e => by simp [e] at h
  simp only [advanceExecute_xp, advanceExecute_seq]
  omega

theorem advanceExecute_phase_ne_faulted {s : State} (hp : s.phase = .executing) :
    s.advanceExecute.phase ≠ .faulted := by
  rw [advanceExecute_phase_of_executing hp]
  split <;> decide

/-- Settles O41: a state left Executing again has its index in the sequence, so it has a next step too. -/
theorem executePassHasNoFailurePath : Obligations.ExecutePassHasNoFailurePath := by
  intro s hp hx
  refine ⟨_, executing_step_next hp hx, advanceExecute_phase_ne_faulted hp, fun ht => ?_⟩
  have hx' := xp_lt_of_advanceExecute_executing hx ht
  exact ⟨hx', _, executing_step_next ht hx'⟩

/-! ### EXECUTE with nothing to run -/

/-- An execute pass over no entries is over where it starts (40_execute_engine.md R67). -/
theorem startExecute_of_empty {s : State} (h : s.seq = []) : startExecute s = s.setPhase .executed := by
  simp [startExecute, h]

theorem execute_of_decoded {s : State} (h : s.phase = .decoded) : hostCommand .execute s = .next (startExecute s) := by
  simp [hostCommand, cmdExecute, h]

theorem execute_of_idle {s : State} (h : s.phase = .idle) : hostCommand .execute s = .next s := by
  simp [hostCommand, cmdExecute, h]

/-- Settles O43: in Decoded the pass starts and is over at once; in Idle EXECUTE has no effect. -/
theorem emptySequenceExecutesToItself : Obligations.EmptySequenceExecutesToItself := by
  refine ⟨fun s hp hseq => ?_, fun s hp => execute_of_idle hp⟩
  rw [execute_of_decoded hp, startExecute_of_empty hseq]
  rfl

end Sys2Proof.Machine
end

section
/-! Proofs of the Noop family (41_nop.md): `Apply(Noop) = skip`, and the execute step that still moves on. -/

namespace Sys2Proof.Machine

/-- Every row that appends a Noop is a skip: Noop's effect on the Register File is none (41_nop.md R77, R78). -/
theorem exec_of_noop {i : Instr} (h : i.variant? = some .noop) (s : State) : exec i s = .next s :=
  exec_of_variant h s

/-- On a Noop the execute step is the advance of `xp` alone (40_execute_engine.md R68). -/
theorem executeStep_of_noop {s : State} (h : s.seq[s.xp]? = some .noop) : executeStep s = .next s.advanceExecute :=
  executeStep_eq h

theorem advanceExecute_of_executing {s : State} (hp : s.phase = .executing) :
    s.advanceExecute =
      { s with xp := s.xp + 1, phase := if s.xp + 1 = s.seq.length then .executed else .executing } := by
  rw [← advanceExecute_phase_of_executing hp]
  rfl

/-- Settles O16: both rows append Noop and so are skips, and an execute step on Noop is the advance of `xp`. -/
theorem noopWritesNothing : Obligations.NoopWritesNothing := by
  intro s op rest
  have hnop : Instr.nop.variant? = some .noop := rfl
  have hfallback : (Instr.nopFallback op).variant? = some .noop := rfl
  refine ⟨Laws.RoundTrip.nop rest rfl nofun, hnop, exec_of_noop hnop s, fun h => decode_fallback h rest,
    hfallback, exec_of_noop hfallback s, fun hp hseq => ?_⟩
  rw [step_of_executing hp, executeStep_of_noop hseq, advanceExecute_of_executing hp]

end Sys2Proof.Machine
end

section
/-! Proofs of the 16-bit Increment and Decrement family (42_incdec_r16.md): a row of the primary table whose entry names
a cell meets the cell's rule. -/

namespace Sys2Proof

open Machine

/-! ### The primary table's rows -/

theorem decodePrimary_of_mem_primaryTable : ∀ row ∈ primaryTable, decodePrimary row.1 = row.2 := by decide

/-- A row of the primary table is its one byte, whatever follows (30_encoding.md R55 to R57). -/
theorem decode_of_mem_primaryTable {op : Byte} {i : Instr} (h : (op, i) ∈ primaryTable) (rest : List Byte) :
    decode (op :: rest) = .ok (i, 1) := by
  have hg : op ≠ 0xFE#8 ∧ op ≠ 0xFC#8 := by
    simpa [isGroupByte] using not_group_of_mem_primaryTable op (List.mem_map_of_mem h)
  have hi : decodePrimary op = i := decodePrimary_of_mem_primaryTable _ h
  simp [decode, hg, hi]

/-! ### The effect on the cell -/

theorem get_regEffect_increment_cell (c : Cell) (g : Regs) :
    (c.get ((Variant.increment (.cell c)).regEffect g)).toNat = ((c.get g).toNat + 1) % 65536 := by
  rw [Variant.regEffect, ← incrementReg_eq]
  exact read_incrementReg (.cell c) g

/-- Decrement on numbers: the non-negative remainder of `x - 1` is that of `x + 65535`, so 0 gives 65535
(40_execute_engine.md R74). -/
theorem get_regEffect_decrement_cell (c : Cell) (g : Regs) :
    (c.get ((Variant.decrement (.cell c)).regEffect g)).toNat = ((c.get g).toNat + 65535) % 65536 := by
  rw [Variant.regEffect, ← decrementReg_eq]
  have hread : ((c.get (decrementReg (.cell c) g)).toNat : Int) = ((c.get g).toNat - 1) % 65536 :=
    read_decrementReg (.cell c) g
  omega

end Sys2Proof

namespace Sys2Proof.Machine

/-! ### The rule of a row -/

/-- A row meets a cell's rule if the primary table lists it and its entry writes that cell by the rule's function: the
step writes the Register File alone, and there the entry reaches no other cell. -/
theorem cellRule_of_regEffect {i : Instr} {op : Byte} {v : Variant} {c : Cell} {f : Nat → Nat}
    (hrow : (op, i) ∈ primaryTable) (hv : i.variant? = some v) (hw : v.writes = some c)
    (hf : ∀ g : Regs, (c.get (v.regEffect g)).toNat = f (c.get g).toNat) : CellRule i op v c f := by
  refine ⟨decode_of_mem_primaryTable hrow, hv, fun s =>
    ⟨s.setRegs (v.regEffect s.regs), exec_of_variant hv s, hf s.regs, fun d hd => ?_, rfl⟩⟩
  have hd : v.writes ≠ some d := by simpa [hw] using hd.symm
  exact get_regEffect_other hd s.regs

theorem cellRule_increment {i : Instr} {op : Byte} {c : Cell} (hrow : (op, i) ∈ primaryTable)
    (hv : i.variant? = some (.increment (.cell c))) :
    CellRule i op (.increment (.cell c)) c (fun x => (x + 1) % 65536) :=
  cellRule_of_regEffect hrow hv rfl (get_regEffect_increment_cell c)

theorem cellRule_decrement {i : Instr} {op : Byte} {c : Cell} (hrow : (op, i) ∈ primaryTable)
    (hv : i.variant? = some (.decrement (.cell c))) :
    CellRule i op (.decrement (.cell c)) c (fun x => (x + 65535) % 65536) :=
  cellRule_of_regEffect hrow hv rfl (get_regEffect_decrement_cell c)

/-- Settles O10: the six rows stand in the primary table, and each appends Increment of its cell. -/
theorem incrementWordRegisters : Obligations.IncrementWordRegisters :=
  ⟨cellRule_increment (by decide) rfl, cellRule_increment (by decide) rfl, cellRule_increment (by decide) rfl,
    cellRule_increment (by decide) rfl, cellRule_increment (by decide) rfl, cellRule_increment (by decide) rfl⟩

/-- Settles O11: the four rows stand in the primary table, and each appends Decrement of its cell. -/
theorem decrementWordRegisters : Obligations.DecrementWordRegisters :=
  ⟨cellRule_decrement (by decide) rfl, cellRule_decrement (by decide) rfl, cellRule_decrement (by decide) rfl,
    cellRule_decrement (by decide) rfl⟩

end Sys2Proof.Machine
end

section
/-! Proofs of the 8-bit Increment and Decrement family (43_incdec_r8.md): a two-byte row whose entry names a view meets
the view's rule. -/

namespace Sys2Proof

open Machine

/-! ### The group byte alone -/

/-- A byte that starts a row of two bytes is a group byte, so alone it is a truncated row (30_encoding.md R50, R62). -/
theorem decode_alone_of_two_bytes {g ss : Byte} {i : Instr} (h : decode [g, ss] = .ok (i, 2)) :
    ∃ j, decode [g] = .ok (j, 1) ∧ j.endsBuffer = true := by
  rcases decode_cons g [ss] with ⟨-, hr, -⟩ | ⟨-, hr, -⟩ | ⟨_, _, rfl, -, -⟩ | ⟨_, _, rfl, -, -⟩ | ⟨-, -, hd⟩
  · cases hr
  · cases hr
  · exact ⟨.truncatedFe, rfl, rfl⟩
  · exact ⟨.truncatedFc, rfl, rfl⟩
  · cases hd.symm.trans h

/-! ### The effect on the view -/

theorem get_regEffect_increment_view (x : View) (f : Regs) :
    (x.get ((Variant.increment (.view x)).regEffect f)).toNat = ((x.get f).toNat + 1) % 256 := by
  rw [Variant.regEffect, ← incrementReg_eq]
  exact read_incrementReg (.view x) f

/-- Decrement on numbers: the non-negative remainder of `x - 1` is that of `x + 255`, so 0 gives 255
(40_execute_engine.md R74). -/
theorem get_regEffect_decrement_view (x : View) (f : Regs) :
    (x.get ((Variant.decrement (.view x)).regEffect f)).toNat = ((x.get f).toNat + 255) % 256 := by
  rw [Variant.regEffect, ← decrementReg_eq]
  have hread : ((x.get (decrementReg (.view x) f)).toNat : Int) = ((x.get f).toNat - 1) % 256 :=
    read_decrementReg (.view x) f
  omega

end Sys2Proof

namespace Sys2Proof.Machine

/-! ### The rule of a row -/

section

variable {i : Instr} {g ss : Byte} {x y : View} (hdec : ∀ rest, decode (g :: ss :: rest) = .ok (i, 2))
include hdec

/-- A row of two bytes meets a view's rule if its entry writes no cell but the view's parent, changes the view by the
rule's function and keeps the other view: the row writes the Register File alone (40_execute_engine.md R71). -/
theorem viewRule_of_regEffect {v : Variant} {f : Nat → Nat} (hv : i.variant? = some v)
    (hw : v.writes = some x.parent) (hf : ∀ r : Regs, (x.get (v.regEffect r)).toNat = f (x.get r).toNat)
    (hkeep : ∀ r : Regs, y.get (v.regEffect r) = y.get r) : ViewRule i g ss v x y f := by
  refine ⟨hdec, hv, decode_alone_of_two_bytes (hdec []), fun s =>
    ⟨s.setRegs (v.regEffect s.regs), exec_of_variant hv s, hf s.regs, hkeep s.regs, fun d hd => ?_, rfl⟩⟩
  have hd : v.writes ≠ some d := by simpa [hw] using hd.symm
  exact get_regEffect_other hd s.regs

theorem viewRule_increment (hv : i.variant? = some (.increment (.view x))) (hy : y ≠ x) :
    ViewRule i g ss (.increment (.view x)) x y (fun n => (n + 1) % 256) :=
  viewRule_of_regEffect hdec hv rfl (get_regEffect_increment_view x) fun r => view_get_set_other hy _ r

theorem viewRule_decrement (hv : i.variant? = some (.decrement (.view x))) (hy : y ≠ x) :
    ViewRule i g ss (.decrement (.view x)) x y (fun n => (n + 255) % 256) :=
  viewRule_of_regEffect hdec hv rfl (get_regEffect_decrement_view x) fun r => view_get_set_other hy _ r

end

/-- Settles O12: each row is its two bytes, whatever follows, and appends Increment of its low view. -/
theorem incrementLowBytes : Obligations.IncrementLowBytes :=
  ⟨viewRule_increment (fun rest => Laws.RoundTrip.incAl rest rfl nofun) rfl nofun,
    viewRule_increment (fun rest => Laws.RoundTrip.incCl rest rfl nofun) rfl nofun,
    viewRule_increment (fun rest => Laws.RoundTrip.incDl rest rfl nofun) rfl nofun,
    viewRule_increment (fun rest => Laws.RoundTrip.incBl rest rfl nofun) rfl nofun⟩

/-- Settles O13: each row is its two bytes, whatever follows, and appends Increment of its high view. -/
theorem incrementHighBytes : Obligations.IncrementHighBytes :=
  ⟨viewRule_increment (fun rest => Laws.RoundTrip.incAh rest rfl nofun) rfl nofun,
    viewRule_increment (fun rest => Laws.RoundTrip.incCh rest rfl nofun) rfl nofun,
    viewRule_increment (fun rest => Laws.RoundTrip.incDh rest rfl nofun) rfl nofun,
    viewRule_increment (fun rest => Laws.RoundTrip.incBh rest rfl nofun) rfl nofun⟩

/-- Settles O14: each row is its two bytes, whatever follows, and appends Decrement of its low view. -/
theorem decrementLowBytes : Obligations.DecrementLowBytes :=
  ⟨viewRule_decrement (fun rest => Laws.RoundTrip.decAl rest rfl nofun) rfl nofun,
    viewRule_decrement (fun rest => Laws.RoundTrip.decCl rest rfl nofun) rfl nofun,
    viewRule_decrement (fun rest => Laws.RoundTrip.decDl rest rfl nofun) rfl nofun,
    viewRule_decrement (fun rest => Laws.RoundTrip.decBl rest rfl nofun) rfl nofun⟩

/-- Settles O15: each row is its two bytes, whatever follows, and appends Decrement of its high view. -/
theorem decrementHighBytes : Obligations.DecrementHighBytes :=
  ⟨viewRule_decrement (fun rest => Laws.RoundTrip.decAh rest rfl nofun) rfl nofun,
    viewRule_decrement (fun rest => Laws.RoundTrip.decCh rest rfl nofun) rfl nofun,
    viewRule_decrement (fun rest => Laws.RoundTrip.decDh rest rfl nofun) rfl nofun,
    viewRule_decrement (fun rest => Laws.RoundTrip.decBh rest rfl nofun) rfl nofun⟩

end Sys2Proof.Machine
end

section
/-! Proofs of the declared family (44_declared_unencoded.md): Stop and the Moves are outside what the Decoder emits, and
Apply skips them. -/

namespace Sys2Proof

/-- Bytes decode only to entries that the Decoder may emit (10_state.md R24). -/
theorem emitted_of_decodedVariant {bytes : List Byte} {v : Variant} (h : decodedVariant bytes = some v) :
    v.emitted = true := by
  unfold decodedVariant at h
  split at h
  · next i _ _ => exact (emitted_of_variant h).1
  · cases h

end Sys2Proof

namespace Sys2Proof.Machine

/-- An execute step on an entry without an effect on the Register File is the advance of `xp` alone
(40_execute_engine.md R68). -/
theorem executeStep_of_skip {s : State} {v : Variant} (hseq : s.seq[s.xp]? = some v) (hskip : ∀ f, v.regEffect f = f) :
    executeStep s = .next s.advanceExecute := by
  rw [executeStep_eq hseq, hskip]
  rfl

/-- Settles O39: neither Stop nor a Move is an entry the Decoder emits, and Apply gives none of them an effect. -/
theorem stopAndMovesHaveNoEncodingAndNoEffect : Obligations.StopAndMovesHaveNoEncodingAndNoEffect := by
  intro v hv
  obtain ⟨hemit, hskip⟩ : v.emitted = false ∧ ∀ f, v.regEffect f = f := by
    obtain rfl | ⟨_, _, _, rfl⟩ | ⟨_, _, _, rfl⟩ | ⟨_, _, rfl⟩ | ⟨_, _, rfl⟩ | ⟨_, _, rfl⟩ := hv <;>
      exact ⟨rfl, fun _ => rfl⟩
  refine ⟨fun bytes h => ?_, fun s hp hseq => ?_⟩
  · simp [emitted_of_decodedVariant h] at hemit
  · rw [step_of_executing hp, executeStep_of_skip hseq hskip, advanceExecute_of_executing hp]

end Sys2Proof.Machine
end

section
/-! Proofs about the encoding as a whole (30_encoding.md): the round trips between rows and bytes, and the opcode
table's words. -/

namespace Sys2Proof

open Machine

/-! ### The round trips -/

/-- Settles O27: one round trip for each row of the table. -/
theorem decodeOfEncodeIsIdentity : Obligations.DecodeOfEncodeIsIdentity := by
  intro i
  cases i
  case invalidSecondaryFe ss => exact Laws.RoundTrip.invalidSecondaryFe ss
  case invalidSecondaryFc ss => exact Laws.RoundTrip.invalidSecondaryFc ss
  case nopFallback op => exact Laws.RoundTrip.nopFallback op
  case truncatedFe => exact Laws.RoundTrip.truncatedFe
  case truncatedFc => exact Laws.RoundTrip.truncatedFc
  all_goals exact fun _ _ _ => rfl

/-- What decodes is a well-formed row, and the row's own bytes are those it was read from (30_encoding.md R53). -/
theorem encode_of_decode {bytes : List Byte} {i : Instr} {len : Nat} (h : decode bytes = .ok (i, len)) :
    i.wf = true ∧ encode i = bytes.take len ∧ (i.endsBuffer = true → bytes.length = 1) := by
  cases bytes with
  | nil => cases h
  | cons op rest =>
    rcases decode_cons op rest with ⟨rfl, rfl, hd⟩ | ⟨rfl, rfl, hd⟩ | ⟨ss, rest', rfl, rfl, hd⟩ |
      ⟨ss, rest', rfl, rfl, hd⟩ | ⟨h1, h2, hd⟩ <;> cases hd.symm.trans h
    · exact ⟨rfl, rfl, fun _ => rfl⟩
    · exact ⟨rfl, rfl, fun _ => rfl⟩
    · obtain ⟨hwf, henc, hends⟩ := decodeGroupFe_spec ss
      exact ⟨hwf, henc, by simp [hends]⟩
    · obtain ⟨hwf, henc, hends⟩ := decodeGroupFc_spec ss
      exact ⟨hwf, henc, by simp [hends]⟩
    · obtain ⟨hwf, henc, hends, -⟩ := decodePrimary_spec op h1 h2
      exact ⟨hwf, henc, by simp [hends]⟩

/-- An entry is one the Decoder may emit, and it came from as many bytes as the decode took (30_encoding.md R50). -/
theorem emitted_of_decode {bytes : List Byte} {i : Instr} {len : Nat} {v : Variant} (h : decode bytes = .ok (i, len))
    (hv : i.variant? = some v) : v.emitted = true ∧ v.byteLength = len := by
  obtain ⟨hemit, hlen⟩ := emitted_of_variant hv
  obtain ⟨-, henc, -⟩ := encode_of_decode h
  rw [henc, List.length_take_of_le (decode_length_le h)] at hlen
  exact ⟨hemit, hlen⟩

/-- Settles O28: each case of a decode is a well-formed row read back from its own bytes. -/
theorem encodeOfDecodeIsTheBytesRead : Obligations.EncodeOfDecodeIsTheBytesRead := by
  intro bytes i len h
  obtain ⟨hwf, henc, hends⟩ := encode_of_decode h
  exact ⟨hwf, henc, decode_length_le h, hends, fun v hv => emitted_of_decode h hv⟩

/-! ### Table words -/

/-- Settles O29: each word's bytes decode as the tables of 30_encoding.md section 3 list them. -/
theorem sampleWordsDecode : Obligations.SampleWordsDecode := by
  unfold Obligations.SampleWordsDecode
  decide

/-- The number of some bytes read after a number `w`, without its last `bytes.length` bytes, is `w` again. -/
theorem foldl_bytes_div (bytes : List Byte) (w : Nat) :
    bytes.foldl (fun w b => w * 256 + b.toNat) w / 256 ^ bytes.length = w := by
  induction bytes generalizing w with
  | nil => simp
  | cons b bytes ih =>
    have hb := b.isLt
    rw [List.foldl_cons, List.length_cons, pow_succ, ← Nat.div_div_eq_div_mul, ih]
    omega

/-- The last bytes of a number built byte by byte are those bytes, whatever was read before them. -/
theorem tableBytes_foldl (bytes : List Byte) (w : Nat) :
    tableBytes bytes.length (bytes.foldl (fun w b => w * 256 + b.toNat) w) = bytes := by
  induction bytes generalizing w with
  | nil => rfl
  | cons b bytes ih =>
    have hb : BitVec.ofNat 8 (w * 256 + b.toNat) = b := by
      apply BitVec.eq_of_toNat_eq
      have := b.isLt
      rw [BitVec.toNat_ofNat]
      omega
    rw [List.foldl_cons, List.length_cons, tableBytes, foldl_bytes_div, hb, ih]

theorem tableBytes_tableWord (bytes : List Byte) : tableBytes bytes.length (tableWord bytes) = bytes :=
  tableBytes_foldl bytes 0

/-- A well-formed row's encoding, alone in the buffer, decodes to the row. -/
theorem decode_encode {i : Instr} (h : i.wf = true) : decode (encode i) = .ok (i, (encode i).length) := by
  simpa using decodeOfEncodeIsIdentity i [] h fun _ => rfl

theorem decodeTableWord_encode {i : Instr} (h : i.wf = true) :
    decodeTableWord (8 * (encode i).length) (tableWord (encode i)) = some i := by
  simp [decodeTableWord, tableBytes_tableWord, decode_encode h]

end Sys2Proof
end

section
/-! Proofs about the decode pass (30_encoding.md section 2, 60_exceptions.md): what one decode step reads and does, and
what the steps of a pass come to. -/

namespace Sys2Proof

open Machine

theorem not_group_iff (op : Byte) : isGroupByte op = false ↔ op ≠ 0xFE#8 ∧ op ≠ 0xFC#8 := by
  simp [isGroupByte]

/-- A primary byte is its own row, whatever follows (30_encoding.md R55 to R58). -/
theorem decode_primary {op : Byte} (hg : isGroupByte op = false) (rest : List Byte) :
    decode (op :: rest) = .ok (decodePrimary op, 1) := by
  obtain ⟨h1, h2⟩ := (not_group_iff op).mp hg
  simp [decode, h1, h2]

/-- A decode looks at no byte past the second (30_encoding.md R53). -/
theorem decode_first_two (op ss : Byte) (rest : List Byte) : decode (op :: ss :: rest) = decode [op, ss] := by
  simp [decode]

theorem decodeGroupFe_of_fault : ∀ ss : Byte, (decodeGroupFe ss).variant? = none →
    decodeGroupFe ss = .invalidSecondaryFe ss := by
  decide +kernel

theorem decodeGroupFc_of_fault : ∀ ss : Byte, (decodeGroupFc ss).variant? = none →
    decodeGroupFc ss = .invalidSecondaryFc ss := by
  decide +kernel

theorem decode_ok_of_ne_nil {bytes : List Byte} (h : bytes ≠ []) : ∃ i len, decode bytes = .ok (i, len) := by
  obtain ⟨op, rest, rfl⟩ := List.exists_cons_of_ne_nil h
  rcases decode_cons op rest with ⟨-, -, hd⟩ | ⟨-, -, hd⟩ | ⟨_, _, -, -, hd⟩ | ⟨_, _, -, -, hd⟩ | ⟨-, -, hd⟩ <;>
    exact ⟨_, _, hd⟩

theorem byteLength_pos_of_emitted {v : Variant} (h : v.emitted = true) : 0 < v.byteLength := by
  cases v with
  | noop => decide
  | increment r => cases r <;> simp [Variant.byteLength]
  | decrement r => cases r <;> simp [Variant.byteLength]
  | _ => cases h

end Sys2Proof

namespace Sys2Proof.Machine

/-! ### What a decode step reads -/

theorem fetch_primary {s : State} {op : Byte} (hop : memRead s s.dp = some op) (hg : isGroupByte op = false) :
    fetch s = some [op] := by
  simp [fetch, hop, hg]

/-- After a group byte at the last offset nothing more is read (30_encoding.md R62). -/
theorem fetch_truncated {s : State} {op : Byte} (hop : memRead s s.dp = some op) (hg : isGroupByte op = true)
    (hn : s.dp + 1 = s.n) : fetch s = some [op] := by
  simp [fetch, hop, hg, hn]

theorem fetch_group {s : State} {op ss : Byte} (hop : memRead s s.dp = some op) (hg : isGroupByte op = true)
    (hss : memRead s (s.dp + 1) = some ss) : fetch s = some [op, ss] := by
  have hn : s.dp + 1 ≠ s.n := (lt_of_memRead hss).ne
  simp [fetch, hop, hg, hn, hss]

/-- In a dense buffer a step inside it reads bytes that decode as all the bytes from `dp` on do. -/
theorem fetch_of_dense {s : State} (hb : s.buf.map Prod.fst = List.range s.n) (hlt : s.dp < s.n) :
    ∃ bytes, fetch s = some bytes ∧ decode bytes = decode (s.bytes.drop s.dp) := by
  have hlen := bytes_length_of_dense hb
  have hop : memRead s s.dp = some s.bytes[s.dp] := by
    rw [memRead_of_dense hb, List.getElem?_eq_getElem]
  rw [List.drop_eq_getElem_cons (hlen.symm ▸ hlt)]
  cases hg : isGroupByte s.bytes[s.dp] with
  | false => exact ⟨_, fetch_primary hop hg, by rw [decode_primary hg, decode_primary hg]⟩
  | true =>
    by_cases hn : s.dp + 1 = s.n
    · exact ⟨_, fetch_truncated hop hg hn, by rw [List.drop_of_length_le (by omega)]⟩
    · have hlt' : s.dp + 1 < s.bytes.length := by omega
      have hss : memRead s (s.dp + 1) = some s.bytes[s.dp + 1] := by
        rw [memRead_of_dense hb, List.getElem?_eq_getElem]
      refine ⟨_, fetch_group hop hg hss, ?_⟩
      rw [List.drop_eq_getElem_cons hlt']
      exact (decode_first_two _ _ _).symm

/-! ### What a decode step does -/

section
variable {s : State} {bytes : List Byte} {i : Instr} {len : Nat} (hf : fetch s = some bytes)
  (hd : decode bytes = .ok (i, len))
include hf hd

theorem decodeStep_append {v : Variant} (hv : i.variant? = some v) : decodeStep s = .next (s.appendDecoded v len) := by
  simp [decodeStep, hf, hd, hv]

theorem decodeStep_fault (hv : i.variant? = none) : decodeStep s = exec i s := by
  simp [decodeStep, hf, hd, hv]

end

theorem appendDecoded_of_decoding {s : State} (hp : s.phase = .decoding) (v : Variant) (len : Nat) :
    s.appendDecoded v len = { s with seq := s.seq ++ [v], dp := s.dp + len,
                                     phase := if s.dp + len = s.n then .decoded else .decoding } := by
  rw [← hp]
  rfl

/-- Settles O31: the step appends a row's entry, and runs a row that has none. -/
theorem decodeStepRunsTheRowAtThePointer : Obligations.DecodeStepRunsTheRowAtThePointer := by
  intro s bytes i len hp hf hd
  rw [step_of_decoding hp]
  refine ⟨fun v hv => ?_, fun hv => ?_⟩
  · rw [decodeStep_append hf hd hv, appendDecoded_of_decoding hp]
  · obtain ⟨code, byte, -, he⟩ := exec_of_fault hv s
    exact ⟨_, he, (decodeStep_fault hf hd hv).trans he⟩

/-- Settles O17: each of the four rows is a decode fault at `dp` with its own code and byte. -/
theorem faultRowsTakeTheDecodeFault : Obligations.FaultRowsTakeTheDecodeFault :=
  fun _ _ => ⟨rfl, rfl, rfl, rfl⟩

/-- Settles O33: the two bytes are a well-formed fault row of their group, which the step runs. -/
theorem unlistedSecondaryFaultsTheDecodePass : Obligations.UnlistedSecondaryFaultsTheDecodePass := by
  intro s g ss hp hg hss hunlisted
  rw [step_of_decoding hp]
  obtain ⟨hfe, hfc, -, -⟩ := faultRowsTakeTheDecodeFault s ss
  obtain ⟨rfl, hl⟩ | ⟨rfl, hl⟩ := hunlisted
  · have hwf : (Instr.invalidSecondaryFe ss).wf = true := by simp [Instr.wf, hl]
    exact (decodeStep_fault (fetch_group hg rfl hss) (decode_encode hwf) rfl).trans hfe
  · have hwf : (Instr.invalidSecondaryFc ss).wf = true := by simp [Instr.wf, hl]
    exact (decodeStep_fault (fetch_group hg rfl hss) (decode_encode hwf) rfl).trans hfc

/-- Settles O34: a group byte with nothing after it is the truncated row of its group, which the step runs. -/
theorem groupByteAtTheEndIsTruncated : Obligations.GroupByteAtTheEndIsTruncated := by
  intro s g hp hg hn hgroup
  rw [step_of_decoding hp]
  obtain ⟨-, -, hfe, hfc⟩ := faultRowsTakeTheDecodeFault s 0#8
  rw [hn] at hfe hfc
  obtain rfl | rfl := hgroup
  · exact (decodeStep_fault (fetch_truncated hg rfl hn) rfl rfl).trans hfe
  · exact (decodeStep_fault (fetch_truncated hg rfl hn) rfl rfl).trans hfc

/-! ### The pure decode pass, one decode at a time -/

section
variable {bytes : List Byte} {i : Instr} {len : Nat} (hd : decode bytes = .ok (i, len))
include hd

theorem decodedVariant_of_decode : decodedVariant bytes = i.variant? := by simp [decodedVariant, hd]

/-- Bytes that decode to a row with an entry: the entry, then the pass over what is left. -/
theorem decodePass_of_variant {v : Variant} (hv : i.variant? = some v) (pos : Nat) :
    decodePass pos bytes = (v :: (decodePass (pos + len) (bytes.drop len)).1,
      (decodePass (pos + len) (bytes.drop len)).2) := by
  have hbytes := decodedVariant_of_decode hd
  cases bytes with
  | nil => cases hd
  | cons op rest =>
    rcases decode_cons op rest with ⟨rfl, rfl, hd'⟩ | ⟨rfl, rfl, hd'⟩ | ⟨ss, rest', rfl, rfl, hd'⟩ |
      ⟨ss, rest', rfl, rfl, hd'⟩ | ⟨h1, h2, hd'⟩ <;> cases hd'.symm.trans hd
    · cases hv
    · cases hv
    · exact decodePass_listed pos rest' rfl (hbytes.trans hv)
    · exact decodePass_listed pos rest' rfl (hbytes.trans hv)
    · simp [decodePass_primary pos rest ((not_group_iff op).mpr ⟨h1, h2⟩), hv]

/-- Bytes that decode to a fault row: no entry, and the record that the row writes at its position. -/
theorem decodePass_of_fault (hv : i.variant? = none) :
    ∃ code byte, code ≠ FaultCode.none ∧ (∀ pos, decodePass pos bytes = ([], ⟨code, pos, byte⟩)) ∧
      ∀ s, exec i s = .next (s.raiseDecodeFault code s.dp byte) := by
  have hbytes := decodedVariant_of_decode hd
  cases bytes with
  | nil => cases hd
  | cons op rest =>
    rcases decode_cons op rest with ⟨rfl, rfl, hd'⟩ | ⟨rfl, rfl, hd'⟩ | ⟨ss, rest', rfl, rfl, hd'⟩ |
      ⟨ss, rest', rfl, rfl, hd'⟩ | ⟨h1, h2, hd'⟩ <;> cases hd'.symm.trans hd
    · exact ⟨.truncated, 0#8, nofun, fun pos => decodePass_truncated pos rfl, fun _ => rfl⟩
    · exact ⟨.truncated, 0#8, nofun, fun pos => decodePass_truncated pos rfl, fun _ => rfl⟩
    · rw [decodeGroupFe_of_fault ss hv]
      exact ⟨.invalidSecondary, ss, nofun, fun pos => decodePass_unlisted pos rest' rfl (hbytes.trans hv),
        fun _ => rfl⟩
    · rw [decodeGroupFc_of_fault ss hv]
      exact ⟨.invalidSecondary, ss, nofun, fun pos => decodePass_unlisted pos rest' rfl (hbytes.trans hv),
        fun _ => rfl⟩
    · obtain ⟨-, -, -, hsome⟩ := decodePrimary_spec op h1 h2
      simp [hv] at hsome

end

/-- What the pure pass makes of the bytes from `dp` on. -/
def State.decodingLeft (s : State) : List Variant × FaultRecord := decodePass s.dp (s.bytes.drop s.dp)

theorem decodingLeft_of_end {s : State} (hb : s.buf.map Prod.fst = List.range s.n) (hdp : s.dp = s.n) :
    s.decodingLeft = ([], .clear) := by
  have hdrop : s.bytes.drop s.dp = [] := List.drop_of_length_le (by rw [bytes_length_of_dense hb, hdp])
  rw [State.decodingLeft, hdrop, decodePass_nil]

/-- A decode step inside a dense buffer takes the pure pass one decode further: it appends the pass's next entry, or
takes the fault in which the pass ends. -/
theorem decodeStep_of_dense {s : State} (hb : s.buf.map Prod.fst = List.range s.n) (hlt : s.dp < s.n) :
    (∃ v, v.emitted = true ∧ s.dp + v.byteLength ≤ s.n ∧
      decodeStep s = .next (s.appendDecoded v v.byteLength) ∧
      s.decodingLeft = (v :: (s.appendDecoded v v.byteLength).decodingLeft.1,
        (s.appendDecoded v v.byteLength).decodingLeft.2)) ∨
    ∃ code byte, code ≠ FaultCode.none ∧ decodeStep s = .next (s.raiseDecodeFault code s.dp byte) ∧
      s.decodingLeft = ([], ⟨code, s.dp, byte⟩) := by
  obtain ⟨bytes, hf, hd⟩ := fetch_of_dense hb hlt
  have hlen := bytes_length_of_dense hb
  obtain ⟨i, len, hrest⟩ := decode_ok_of_ne_nil (bytes := s.bytes.drop s.dp) (by simp; omega)
  rw [hrest] at hd
  cases hv : i.variant? with
  | some v =>
    obtain ⟨hemit, rfl⟩ := emitted_of_decode hd hv
    have hle := decode_length_le hrest
    rw [List.length_drop] at hle
    refine .inl ⟨v, hemit, by omega, decodeStep_append hf hd hv, ?_⟩
    rw [State.decodingLeft, decodePass_of_variant hrest hv, List.drop_drop]
    rfl
  | none =>
    obtain ⟨code, byte, hc, hpass, he⟩ := decodePass_of_fault hrest hv
    exact .inr ⟨code, byte, hc, (decodeStep_fault hf hd hv).trans (he s), hpass s.dp⟩

/-! ### The steps of a decode pass -/

/-- The state in which a decode pass from `s` ends, where the pass over the rest of the buffer comes to `rest`
(30_encoding.md R54, 60_exceptions.md R113, R114). -/
def State.endDecodePass (s : State) (rest : List Variant × FaultRecord) : State :=
  { s with
    seq := s.seq ++ rest.1
    record := rest.2
    dp := if rest.2.code = .none then s.n else rest.2.pos + 1
    phase := if rest.2.code = .none then .decoded else .faulted }

theorem endDecodePass_appendDecoded (s : State) (v : Variant) (len : Nat) (rest : List Variant × FaultRecord) :
    (s.appendDecoded v len).endDecodePass rest = s.endDecodePass (v :: rest.1, rest.2) := by
  simp [State.endDecodePass, State.appendDecoded]

theorem endDecodePass_last {s : State} (hr : s.record = .clear) {v : Variant} {len : Nat} (hn : s.dp + len = s.n) :
    s.endDecodePass ([v], .clear) = s.appendDecoded v len := by
  simp [State.endDecodePass, State.appendDecoded, FaultRecord.clear, hn, hr]

theorem endDecodePass_fault (s : State) {code : FaultCode} (hc : code ≠ .none) (byte : Byte) :
    s.endDecodePass ([], ⟨code, s.dp, byte⟩) = s.raiseDecodeFault code s.dp byte := by
  simp [State.endDecodePass, State.raiseDecodeFault, hc]

/-- The pass ends within one step a byte, in the state that the pure pass over the rest of the buffer gives. -/
theorem runSteps_decodePass {s : State} (hp : s.phase = .decoding) (hb : s.buf.map Prod.fst = List.range s.n)
    (hlt : s.dp < s.n) (hr : s.record = .clear) :
    ∃ k, k ≤ s.n - s.dp ∧ runSteps k s = .next (s.endDecodePass s.decodingLeft) := by
  induction hm : s.n - s.dp using Nat.strong_induction_on generalizing s with
  | _ m ih =>
    have hstep := step_of_decoding hp
    obtain ⟨v, hemit, hle, hs, hleft⟩ | ⟨code, byte, hc, hs, hleft⟩ := decodeStep_of_dense hb hlt
    · have hpos := byteLength_pos_of_emitted hemit
      by_cases hn : s.dp + v.byteLength = s.n
      · rw [decodingLeft_of_end (s := s.appendDecoded v v.byteLength) hb hn] at hleft
        refine ⟨1, by omega, ?_⟩
        rw [runSteps_succ (hstep.trans hs), hleft, endDecodePass_last hr hn, runSteps_zero]
      · obtain ⟨k, hk, hrun⟩ := ih (s.n - (s.dp + v.byteLength)) (by omega) (s := s.appendDecoded v v.byteLength)
          ((if_neg hn).trans hp) hb (lt_of_le_of_ne hle hn) hr rfl
        refine ⟨k + 1, by omega, ?_⟩
        rw [runSteps_succ (hstep.trans hs), hrun, endDecodePass_appendDecoded, hleft]
    · refine ⟨1, by omega, ?_⟩
      rw [runSteps_succ (hstep.trans hs), hleft, endDecodePass_fault s hc, runSteps_zero]

/-- A pass without a fault leaves the whole record clear. -/
theorem decodePass_record_clear (pos : Nat) (bytes : List Byte) (h : (decodePass pos bytes).2.code = .none) :
    (decodePass pos bytes).2 = .clear := by
  induction pos, bytes using decodePass.induct with
  | case1 pos => simp
  | case2 pos op hg => simp [decodePass_truncated pos hg] at h
  | case3 pos op hg ss rest hv => simp [decodePass_unlisted pos rest hg hv] at h
  | case4 pos op hg ss rest v hv ih =>
    rw [decodePass_listed pos rest hg hv] at h ⊢
    exact ih h
  | case5 pos op rest hg ih =>
    rw [decodePass_primary pos rest (by simpa using hg)] at h ⊢
    exact ih h

/-- Settles O35: the state in which the pass ends has the pure pass's entries and record, and its phase and pointer
follow from the record. -/
theorem decodePassComputesTheDecoding : Obligations.DecodePassComputesTheDecoding := by
  intro s hp hb hlt hr
  obtain ⟨k, hk, hrun⟩ := runSteps_decodePass hp hb hlt hr
  refine ⟨k, _, hk, hrun, rfl, rfl, rfl, rfl, rfl, rfl, rfl, ?_⟩
  by_cases hc : s.decodingLeft.2.code = .none
  · exact .inl ⟨if_pos hc, if_pos hc, decodePass_record_clear _ _ hc⟩
  · exact .inr ⟨if_neg hc, hc, if_neg hc⟩

end Sys2Proof.Machine
end

section
/-! Proofs about rows, entries and the execute pass (40_execute_engine.md): their frames, and what the steps of a pass
come to. -/

namespace Sys2Proof.Machine

/-! ### Rows and entries -/

/-- Settles O18: a row with an entry writes the Register File by the entry's effect, and a fault row the fields of a
decode fault; neither is what a read of the buffer sees. -/
theorem everyRowKeepsItsFrame : Obligations.EveryRowKeepsItsFrame := by
  intro i s t h
  cases hv : i.variant? with
  | some v =>
    rw [exec_of_variant hv] at h
    cases h
    refine ⟨rfl, rfl, rfl, rfl, rfl, rfl, memRead_congr rfl rfl, fun w hw => ⟨rfl, rfl, rfl, fun c hc => ?_⟩, nofun⟩
    cases hw
    exact get_regEffect_other hc s.regs
  | none =>
    obtain ⟨code, byte, he⟩ := exec_of_fault_uniform hv
    rw [he] at h
    cases h
    exact ⟨rfl, rfl, rfl, rfl, rfl, rfl, memRead_congr rfl rfl, nofun, fun _ => rfl⟩

/-- Decrement by a sum: the non-negative remainder of `x - 1` is that of `x + (2 ^ width - 1)` (40_execute_engine.md
R74). -/
theorem regEffect_decrement (r : Reg) (f : Regs) :
    (Variant.decrement r).regEffect f = r.write ((r.read f + (2 ^ r.width - 1)) % 2 ^ r.width) f := by
  have h := pred_mod_toNat (r.read f) (2 ^ r.width) (by positivity)
  push_cast at h
  rw [Variant.regEffect, h]

/-- Settles O38: Apply is the entry's effect on the Register File, which is written out for each variant. -/
theorem applyIsTotal : Obligations.ApplyIsTotal := by
  refine fun s => ⟨rfl, rfl, fun r => applyVariant_eq _ s, fun r => ?_, fun _ _ _ => rfl, fun _ _ _ => rfl,
    fun _ _ => rfl, fun _ _ => rfl, fun _ _ => rfl⟩
  rw [applyVariant_eq, regEffect_decrement]
  rfl

/-! ### The execute pass -/

/-- Settles O37: the row of the entry at `xp` has the entry's effect, and the step is that and the advance of `xp`. -/
theorem executeStepRunsTheEntryAtTheIndex : Obligations.ExecuteStepRunsTheEntryAtTheIndex := by
  intro s i v hp hseq hv
  refine ⟨_, exec_of_variant hv s, ?_⟩
  rw [step_of_executing hp, executeStep_eq hseq]
  exact congrArg _ (advanceExecute_of_executing hp)

/-- The state after `k` entries of an execute pass, short of its end (40_execute_engine.md R68, R69). -/
def State.afterEntries (s : State) (k : Nat) : State :=
  { s with regs := executePass ((s.seq.drop s.xp).take k) s.regs, xp := s.xp + k }

theorem executePass_take_succ {vs : List Variant} {k : Nat} (hk : k < vs.length) (f : Regs) :
    executePass (vs.take (k + 1)) f = vs[k].regEffect (executePass (vs.take k) f) := by
  rw [List.take_succ_eq_append_getElem hk, executePass_append_one]

/-- The next entry of the pass is applied to what the entries before it left. -/
theorem afterEntries_succ {s : State} {k : Nat} (hk : s.xp + k < s.seq.length) :
    s.afterEntries (k + 1) =
      { s.afterEntries k with
        regs := s.seq[s.xp + k].regEffect (s.afterEntries k).regs, xp := (s.afterEntries k).xp + 1 } := by
  have hlt : k < (s.seq.drop s.xp).length := by simp; omega
  simp only [State.afterEntries, executePass_take_succ hlt, List.getElem_drop]
  rfl

theorem step_afterEntries {s : State} (hp : s.phase = .executing) {k : Nat} (hk : s.xp + k < s.seq.length) :
    step (s.afterEntries k) =
      .next ((s.afterEntries (k + 1)).setPhase (if s.xp + (k + 1) = s.seq.length then .executed else .executing)) := by
  rw [afterEntries_succ hk]
  exact (executing_step_next (s := s.afterEntries k) hp hk).trans (congrArg _ (advanceExecute_of_executing hp))

theorem runSteps_afterEntries {s : State} (hp : s.phase = .executing) {k : Nat} (hk : s.xp + k < s.seq.length) :
    runSteps k s = .next (s.afterEntries k) := by
  induction k with
  | zero => simp [State.afterEntries]
  | succ k ih =>
    rw [runSteps_add k 1 (ih (by omega)), runSteps_succ (step_afterEntries hp (by omega)), if_neg (by omega), ← hp]
    rfl

/-- Settles O42: the steps short of the end apply one entry each, and the last step applies the last entry. -/
theorem executePassAppliesEntriesInOrder : Obligations.ExecutePassAppliesEntriesInOrder := by
  intro s hp hx
  refine ⟨fun k hk => runSteps_afterEntries hp (by omega), ?_⟩
  obtain ⟨k, hk⟩ : ∃ k, s.seq.length - s.xp = k + 1 := ⟨s.seq.length - s.xp - 1, by omega⟩
  have hend : s.xp + (k + 1) = s.seq.length := by omega
  have hall : (s.seq.drop s.xp).take (k + 1) = s.seq.drop s.xp := List.take_of_length_le (by simp; omega)
  rw [hk, runSteps_add k 1 (runSteps_afterEntries hp (by omega)), runSteps_succ (step_afterEntries hp (by omega)),
    if_pos hend, runSteps_zero, State.afterEntries, hall, ← hend]
  rfl

end Sys2Proof.Machine
end

section
/-! Proofs about the controller (10_state.md section 4, 60_exceptions.md, 70_reset_and_hazards.md): the host's commands,
who writes the buffer, where the passes start, and what the host can read. -/

namespace Sys2Proof.Machine

/-! ### The host's commands -/

theorem load_of_quiescent {s : State} (hq : s.phase.quiescent = true) (bytes : List Byte) :
    hostCommand (.load bytes) s = cmdLoad bytes s := by
  cases hp : s.phase
  case decoding | executing => simp [hp, Phase.quiescent] at hq
  all_goals simp [hostCommand, hp]

theorem cmdLoad_of_le {bytes : List Byte} (h : bytes.length ≤ Config.maxBufLen) (s : State) :
    cmdLoad bytes s = .next (s.loadBytes bytes) := if_pos h

theorem cmdLoad_of_gt {bytes : List Byte} (h : Config.maxBufLen < bytes.length) (s : State) :
    cmdLoad bytes s = .refused .loadTooLong := if_neg (Nat.not_le.mpr h)

theorem decode_of_idle {s : State} (h : s.phase = .idle) : hostCommand .decode s = .next (startDecode s) := by
  simp [hostCommand, cmdDecode, h]

theorem execute_of_faulted {s : State} (h : s.phase = .faulted) : hostCommand .execute s = .next s := by
  simp [hostCommand, cmdExecute, h]

theorem decode_of_quiescent {s : State} (hq : s.phase.quiescent = true) : ∃ t, hostCommand .decode s = .next t := by
  cases hp : s.phase
  case decoding | executing => simp [hp, Phase.quiescent] at hq
  all_goals simp [hostCommand, cmdDecode, hp]

theorem execute_of_quiescent {s : State} (hq : s.phase.quiescent = true) : ∃ t, hostCommand .execute s = .next t := by
  cases hp : s.phase
  case decoding | executing => simp [hp, Phase.quiescent] at hq
  all_goals simp [hostCommand, cmdExecute, hp]

theorem step_of_command {s : State} (hq : s.phase.quiescent = true) {c : Command} {cs : List Command}
    (h : s.commands = c :: cs) : step s = hostCommand c (s.setCommands cs) := by
  simp [step_of_quiescent hq, hostTurn, h]

theorem step_of_load {s : State} (hq : s.phase.quiescent = true) {bytes : List Byte} {cs : List Command}
    (h : s.commands = .load bytes :: cs) : step s = cmdLoad bytes (s.setCommands cs) :=
  (step_of_command hq h).trans (load_of_quiescent (s := s.setCommands cs) hq bytes)

/-- With no command pending a quiescent state holds (60_exceptions.md R128). -/
theorem step_of_no_command {s : State} (hq : s.phase.quiescent = true) (h : s.commands = []) : step s = .next s := by
  simp [step_of_quiescent hq, hostTurn, h]

/-- Settles O2: in a quiescent phase LOAD is its writes, and those clear the flags. -/
theorem loadResetsEveryField : Obligations.LoadResetsEveryField := by
  intro s bytes hq hle
  rw [load_of_quiescent hq, cmdLoad_of_le hle]
  rfl

/-- Settles O3: in a quiescent phase LOAD looks at the number of its bytes. -/
theorem overlongLoadHasNoStep : Obligations.OverlongLoadHasNoStep := by
  intro s bytes hq hgt
  rw [load_of_quiescent hq, cmdLoad_of_gt hgt]

/-- Settles O45: the assembler path is refused whatever the state. -/
theorem assemblerIsRefused : Obligations.AssemblerIsRefused := fun _ _ => rfl

/-- Settles O44: the three commands, in each of the six phases. -/
theorem hostCommandAcceptanceTable : Obligations.HostCommandAcceptanceTable := by
  refine fun s => ⟨?_, ?_, fun bytes => ?_⟩
  · cases hp : s.phase <;> simp [hostCommand, cmdDecode, hp, startDecode, State.setPhase]
  · cases hp : s.phase <;> simp [hostCommand, cmdExecute, hp, startExecute, State.setPhase]
  · cases hp : s.phase <;> simp [hostCommand, cmdLoad, hp]

/-- Settles O46: in a quiescent phase a step is the host's turn. -/
theorem quiescentPhasesWaitForTheHost : Obligations.QuiescentPhasesWaitForTheHost :=
  fun _ hq => ⟨step_of_no_command hq, fun _ _ => step_of_command hq⟩

/-! ### Who writes the buffer -/

/-- A step keeps BUF and `N`, or it is a LOAD within the bound (70_reset_and_hazards.md R129, R130). -/
theorem step_buffer_cases {s t : State} (h : step s = .next t) :
    (t.n = s.n ∧ t.buf = s.buf) ∨
    ∃ bytes cs, s.phase.quiescent = true ∧ s.commands = .load bytes :: cs ∧ bytes.length ≤ Config.maxBufLen ∧
      t = (s.setCommands cs).loadBytes bytes := by
  cases hq : s.phase.quiescent with
  | false =>
    obtain ⟨hn, hb, -, -⟩ := passStep_frame hq h
    exact .inl ⟨hn, hb⟩
  | true =>
    rw [step_of_quiescent hq] at h
    obtain ⟨-, rfl⟩ | ⟨c, cs, hc, ⟨bytes, rfl, hle, rfl⟩ | ⟨-, -, rfl⟩ | ⟨-, -, rfl⟩ | ⟨-, rfl⟩⟩ := hostTurn_cases hq h
    case inr.inl => exact .inr ⟨bytes, cs, rfl, hc, hle, rfl⟩
    all_goals exact .inl ⟨rfl, rfl⟩

/-- Settles O5: of the commands only LOAD writes BUF or `N`, and no step of a pass does. -/
theorem onlyALoadStepChangesTheBuffer : Obligations.OnlyALoadStepChangesTheBuffer := by
  intro s t h
  obtain hkeep | ⟨bytes, cs, hq, hc, -, ht⟩ := step_buffer_cases h
  · exact .inl hkeep
  · exact .inr ⟨bytes, cs, hq, hc, ht⟩

/-! ### Where the passes start and end -/

theorem startDecode_phase (s : State) : (startDecode s).phase = .decoded ∨ (startDecode s).phase = .decoding := by
  rw [startDecode, setPhase_phase]
  split <;> simp

theorem startExecute_phase (s : State) : (startExecute s).phase = .executed ∨ (startExecute s).phase = .executing := by
  rw [startExecute, setPhase_phase]
  split <;> simp

theorem decodeStep_keeps {s t : State} (hp : s.phase = .decoding) (h : step s = .next t) :
    (t.phase = .decoding ∨ t.phase = .decoded ∨ t.phase = .faulted) ∧ t.regs = s.regs ∧ t.xp = s.xp := by
  rw [step_of_decoding hp] at h
  obtain ⟨_, _, _, -, -, ⟨v, -, rfl⟩ | ⟨-, -, code, byte, -, rfl⟩⟩ := decodeStep_cases h
  · refine ⟨?_, rfl, rfl⟩
    rw [appendDecoded_phase, hp]
    split <;> simp
  · exact ⟨.inr (.inr rfl), rfl, rfl⟩

theorem executeStep_keeps {s t : State} (hp : s.phase = .executing) (h : step s = .next t) :
    (t.phase = .executing ∨ t.phase = .executed) ∧ t.seq = s.seq ∧ t.dp = s.dp := by
  obtain ⟨hdp, -, -, hseq, -, -, -, -, hphase, -⟩ := executeStepWritesOnlyItsCell s t hp h
  refine ⟨?_, hseq, hdp⟩
  rw [hphase]
  split <;> simp

/-- A step that ends in a pass was in it, or was the command that starts it (10_state.md R31). -/
theorem pass_start {s t : State} (h : step s = .next t) :
    (t.phase = .executing → s.phase = .executing ∨ s.phase = .decoded ∧ ∃ cs, s.commands = .execute :: cs) ∧
    (t.phase = .decoding → s.phase = .decoding ∨ s.phase = .idle ∧ ∃ cs, s.commands = .decode :: cs) := by
  obtain ⟨hp, -⟩ | ⟨hp, -⟩ | ⟨hq, hh⟩ := step_cases h
  · obtain ⟨ht, -, -⟩ := decodeStep_keeps hp h
    exact ⟨fun he => by simp [he] at ht, fun _ => .inl hp⟩
  · obtain ⟨ht, -, -⟩ := executeStep_keeps hp h
    exact ⟨fun _ => .inl hp, fun hd => by simp [hd] at ht⟩
  · obtain ⟨-, rfl⟩ | ⟨c, cs, hc, ⟨bytes, -, -, rfl⟩ | ⟨rfl, hp, rfl⟩ | ⟨rfl, hp, rfl⟩ | ⟨-, rfl⟩⟩ :=
      hostTurn_cases hq hh
    · exact ⟨.inl, .inl⟩
    · exact ⟨nofun, nofun⟩
    · have ht := startDecode_phase (s.setCommands cs)
      exact ⟨fun he => by simp [he] at ht, fun _ => .inr ⟨hp, cs, hc⟩⟩
    · have ht := startExecute_phase (s.setCommands cs)
      exact ⟨fun _ => .inr ⟨hp, cs, hc⟩, fun hd => by simp [hd] at ht⟩
    · exact ⟨.inl, .inl⟩

/-- Settles O48: the fields and phases a step of each pass leaves, and the commands that start the passes. -/
theorem passesNeverOverlap : Obligations.PassesNeverOverlap := by
  refine ⟨fun s t hp h => ?_, fun s t hp h => executeStep_keeps hp h, fun s t h => pass_start h⟩
  obtain ⟨ht, hregs, hxp⟩ := decodeStep_keeps hp h
  refine ⟨fun he => ?_, fun he => ?_, hregs, hxp⟩ <;> simp [he] at ht

/-- Settles O49: in Faulted DECODE and EXECUTE have no effect, and LOAD sets every field. -/
theorem onlyLoadLeavesFaulted : Obligations.OnlyLoadLeavesFaulted := by
  intro s t hp h
  have hq : s.phase.quiescent = true := by rw [hp]; rfl
  rw [step_of_quiescent hq] at h
  obtain ⟨hc, rfl⟩ | ⟨c, cs, hc, ⟨bytes, rfl, -, rfl⟩ | ⟨-, hp', -⟩ | ⟨-, hp', -⟩ | ⟨-, rfl⟩⟩ := hostTurn_cases hq h
  · left
    rw [hc, List.tail_nil, ← hc]
  · exact .inr ⟨bytes, cs, hc, rfl⟩
  · cases hp.symm.trans hp'
  · cases hp.symm.trans hp'
  · left
    simp [hc, State.setCommands]

/-! ### What the host can read -/

theorem regs_ext {f g : Regs} (h : ∀ c : Cell, c.get f = c.get g) : f = g := by
  cases f
  cases g
  simp only [Regs.mk.injEq]
  exact ⟨h .ax, h .bx, h .cx, h .dx, h .cs, h .ds, h .es, h .ss, h .si, h .di, h .bp, h .sp, h .ip⟩

theorem flags_ext {f g : Flags} (h : ∀ x : Flag, f.get x = g.get x) : f = g := by
  cases f
  cases g
  simp only [Flags.mk.injEq]
  exact ⟨h .carry, h .auxiliary, h .parity, h .zero, h .sign, h .overflow, h .trap, h .interrupt, h .direction⟩

theorem record_ext {r q : FaultRecord} (hc : r.code = q.code) (hp : r.pos = q.pos) (hb : r.byte = q.byte) : r = q := by
  cases r
  cases q
  simp only [FaultRecord.mk.injEq]
  exact ⟨hc, hp, hb⟩

/-- Settles O50: each named field is determined by its outputs, and each output by a named field. -/
theorem outputsShowExactlyTheNamedState : Obligations.OutputsShowExactlyTheNamedState := by
  refine fun s u => ⟨fun h => ?_, fun ⟨hregs, hflags, hdp, hphase, hrecord, hseq⟩ p => ?_⟩
  · refine ⟨regs_ext fun c => ?_, flags_ext fun x => ?_, ?_, ?_, ?_, List.ext_getElem? fun k => ?_⟩
    · exact BitVec.eq_of_toNat_eq (PortValue.number.inj (h (.register (.cell c))))
    · exact PortValue.bit.inj (h (.flag x))
    · exact PortValue.number.inj (h .decodePointer)
    · exact PortValue.phase.inj (h .phase)
    · exact record_ext (PortValue.code.inj (h .faultCode)) (PortValue.number.inj (h .faultPos))
        (BitVec.eq_of_toNat_eq (PortValue.number.inj (h .faultByte)))
    · exact PortValue.entry.inj (h (.seqEntry k))
  · cases p <;> simp [hostRead, hregs, hflags, hdp, hphase, hrecord, hseq]

end Sys2Proof.Machine
end

section
/-! Proofs about what a pass cannot see: the decode pass looks at the buffer alone (30_encoding.md section 4), and no
pass looks at the pending commands (70_reset_and_hazards.md section 3). -/

namespace Sys2Proof.Machine

/-! ### The fields a decode step neither reads nor writes -/

/-- An edit of the Register File, the Flag Set, `xp` and the host's pending commands. -/
def mapUndecoded (fr : Regs → Regs) (fg : Flags → Flags) (fx : Nat → Nat) (fc : List Command → List Command)
    (s : State) : State :=
  { s with regs := fr s.regs, flags := fg s.flags, xp := fx s.xp, commands := fc s.commands }

section
variable (fr : Regs → Regs) (fg : Flags → Flags) (fx : Nat → Nat) (fc : List Command → List Command)

/-- A decode step reads BUF, `N`, `dp`, `seq` and PHASE, and a fault row writes no other field than an entry's append
does but the fault record. -/
theorem decodeStep_commutesWith_mapUndecoded : CommutesWith (mapUndecoded fr fg fx fc) decodeStep := by
  intro s
  have hfetch : fetch (mapUndecoded fr fg fx fc s) = fetch s := rfl
  cases hf : fetch s with
  | none =>
    simp only [decodeStep, hfetch, hf]
    rfl
  | some bytes =>
    cases hd : decode bytes with
    | error e =>
      cases e
      simp only [decodeStep, hfetch, hf, hd]
      rfl
    | ok r =>
      obtain ⟨i, len⟩ := r
      cases hv : i.variant? with
      | some v =>
        rw [decodeStep_append (hfetch.trans hf) hd hv, decodeStep_append hf hd hv]
        rfl
      | none =>
        obtain ⟨code, byte, he⟩ := exec_of_fault_uniform hv
        rw [decodeStep_fault (hfetch.trans hf) hd hv, decodeStep_fault hf hd hv, he, he]
        rfl

theorem step_mapUndecoded_of_decoding {s : State} (hp : s.phase = .decoding) :
    step (mapUndecoded fr fg fx fc s) = thenDo (step s) (mapUndecoded fr fg fx fc) := by
  have hp' : (mapUndecoded fr fg fx fc s).phase = .decoding := hp
  rw [step_of_decoding hp, step_of_decoding hp']
  exact decodeStep_commutesWith_mapUndecoded fr fg fx fc s

end

theorem phase_cases (p : Phase) : p = .decoding ∨ p = .executing ∨ p.quiescent = true := by
  cases p <;> simp [Phase.quiescent]

/-- Settles O47: the pending commands are among the fields that a step of either pass does not look at. -/
theorem pendingCommandsCannotDisturbAPass : Obligations.PendingCommandsCannotDisturbAPass := by
  intro s cs hq
  obtain hp | hp | hq' := phase_cases s.phase
  · exact step_mapUndecoded_of_decoding id id id (fun _ => cs) hp
  · exact step_mapBystanders_of_executing id id (fun _ => cs) hp
  · cases hq.symm.trans hq'

/-! ### Runs of the decode pass -/

theorem step_keeps_no_command {s t : State} (hc : s.commands = []) (h : step s = .next t) : t.commands = [] := by
  cases hq : s.phase.quiescent with
  | false =>
    obtain ⟨-, -, -, hcs⟩ := passStep_frame hq h
    exact hcs.trans hc
  | true =>
    cases (step_of_no_command hq hc).symm.trans h
    exact hc

/-- With no command pending no execute pass starts. -/
theorem step_stays_unexecuting {s t : State} (hp : s.phase ≠ .executing) (hc : s.commands = []) (h : step s = .next t) :
    t.phase ≠ .executing := by
  intro ht
  obtain hp' | ⟨-, cs, hcs⟩ := (pass_start h).1 ht
  · exact hp hp'
  · cases hc.symm.trans hcs

/-- A run of `k + 1` steps is a step and a run of `k`. -/
theorem runSteps_succ_cases {k : Nat} {s t : State} (h : runSteps (k + 1) s = .next t) :
    ∃ r, step s = .next r ∧ runSteps k r = .next t := by
  cases hs : step s with
  | next r => exact ⟨r, rfl, (runSteps_succ hs k).symm.trans h⟩
  | fault e => simp [runSteps, hs] at h
  | refused e => simp [runSteps, hs] at h

section
variable (f : Regs) (g : Flags) (x : Nat)

/-- Outside the execute pass and with no command pending, the registers, the flags and `xp` are bystanders. -/
theorem step_mapUndecoded {s : State} (hp : s.phase ≠ .executing) (hc : s.commands = []) :
    step (mapUndecoded (fun _ => f) (fun _ => g) (fun _ => x) id s) =
      thenDo (step s) (mapUndecoded (fun _ => f) (fun _ => g) (fun _ => x) id) := by
  obtain hd | he | hq := phase_cases s.phase
  · exact step_mapUndecoded_of_decoding _ _ _ _ hd
  · exact absurd he hp
  · rw [step_of_no_command hq hc]
    exact step_of_no_command hq hc

theorem runSteps_mapUndecoded {k : Nat} {s t : State} (hp : s.phase ≠ .executing) (hc : s.commands = [])
    (h : runSteps k s = .next t) :
    runSteps k (mapUndecoded (fun _ => f) (fun _ => g) (fun _ => x) id s) =
      .next (mapUndecoded (fun _ => f) (fun _ => g) (fun _ => x) id t) := by
  induction k generalizing s with
  | zero =>
    cases h
    rfl
  | succ k ih =>
    obtain ⟨r, hr, hrest⟩ := runSteps_succ_cases h
    have hstep := step_mapUndecoded f g x hp hc
    rw [hr] at hstep
    rw [runSteps_succ hstep]
    exact ih (step_stays_unexecuting hp hc hr) (step_keeps_no_command hc hr) hrest

end

/-- Settles O36: a state that agrees with `s` is `s` with other registers, flags and `xp`, which the run carries
along. -/
theorem decodingDependsOnTheBufferAlone : Obligations.DecodingDependsOnTheBufferAlone := by
  intro k s u t hagree hp hsc huc h
  have hu : u = mapUndecoded (fun _ => u.regs) (fun _ => u.flags) (fun _ => u.xp) id s := by
    obtain ⟨hb, hn, hdp, hseq, hphase, hrecord⟩ := hagree
    have hcs : s.commands = u.commands := hsc.trans huc.symm
    simp [mapUndecoded, hb, hn, hdp, hseq, hphase, hrecord, hcs]
  rw [hu]
  exact ⟨_, runSteps_mapUndecoded u.regs u.flags u.xp (by simp [hp]) hsc h, rfl, rfl, rfl, rfl, rfl, rfl⟩

end Sys2Proof.Machine
end

section
/-! Proofs about the run invariant: it holds at reset, every step keeps it, and what it says of a state. -/

namespace Sys2Proof.Machine

/-! ### The invariant, phase by phase -/

section
variable {s : State}

theorem phaseInv_idle (hp : s.phase = .idle) :
    PhaseInv s ↔ s.dp = 0 ∧ s.seq = [] ∧ s.xp = 0 ∧ s.record = .clear := by simp only [PhaseInv, hp]

theorem phaseInv_decoding (hp : s.phase = .decoding) :
    PhaseInv s ↔ s.dp < s.n ∧ s.xp = 0 ∧ s.record = .clear := by simp only [PhaseInv, hp]

theorem phaseInv_decoded (hp : s.phase = .decoded) :
    PhaseInv s ↔ s.dp = s.n ∧ s.xp = 0 ∧ s.record = .clear := by simp only [PhaseInv, hp]

theorem phaseInv_executing (hp : s.phase = .executing) :
    PhaseInv s ↔ s.dp = s.n ∧ s.xp < s.seq.length ∧ s.record = .clear := by simp only [PhaseInv, hp]

theorem phaseInv_executed (hp : s.phase = .executed) :
    PhaseInv s ↔ s.dp = s.n ∧ s.xp = s.seq.length ∧ s.record = .clear := by simp only [PhaseInv, hp]

theorem phaseInv_faulted (hp : s.phase = .faulted) :
    PhaseInv s ↔ s.xp = 0 ∧ s.record.code ≠ .none ∧ s.record.pos < s.n ∧ s.dp = s.record.pos + 1 := by
  simp only [PhaseInv, hp]

theorem sequenceInv_decoding (hp : s.phase = .decoding) :
    SequenceInv s ↔ decodePass 0 s.bytes = (s.seq ++ s.decodingLeft.1, s.decodingLeft.2) := by
  simp only [SequenceInv, hp, State.decodingLeft]

/-- Once the decode pass is over, `seq` and the record are the whole decoding. -/
theorem sequenceInv_after_decoding (hi : s.phase ≠ .idle) (hd : s.phase ≠ .decoding) :
    SequenceInv s ↔ decodePass 0 s.bytes = (s.seq, s.record) := by
  cases hp : s.phase <;> simp_all only [SequenceInv, ne_eq, not_true_eq_false]

theorem decodedBytes_faulted (hp : s.phase = .faulted) : decodedBytes s = s.record.pos := if_pos hp

theorem decodedBytes_of_ne_faulted (hp : s.phase ≠ .faulted) : decodedBytes s = s.dp := if_neg hp

theorem RunInvariant.lengths_eq_dp (h : RunInvariant s) (hp : s.phase ≠ .faulted) :
    (s.seq.map Variant.byteLength).sum = s.dp :=
  h.lengthsAddUp.trans (decodedBytes_of_ne_faulted hp)

end

/-! ### The states a run starts from -/

/-- LOAD establishes the invariant, whatever the state before it (70_reset_and_hazards.md R129). -/
theorem runInvariant_loadBytes (s : State) (bytes : List Byte) : RunInvariant (s.loadBytes bytes) where
  bufferDense := ofBytes_addresses bytes
  pointerInBuffer := Nat.zero_le _
  sequenceFits := le_rfl
  indexInSequence := le_rfl
  emittedOnly := nofun
  lengthsAddUp := rfl
  controller := ⟨rfl, rfl, rfl, rfl⟩
  sequence := trivial
  registers := rfl
  flagsFalse := rfl

/-- Settles O51: the reset state is what LOAD of no bytes leaves. -/
theorem invariantHoldsAtReset : Obligations.InvariantHoldsAtReset :=
  ⟨runInvariant_loadBytes State.reset [], Nat.zero_le _⟩

/-! ### Every step keeps the invariant -/

theorem RunInvariant.setCommands {s : State} (h : RunInvariant s) (cs : List Command) :
    RunInvariant (s.setCommands cs) :=
  { h with }

/-- A change of PHASE alone has only the phase's own parts to show. -/
theorem RunInvariant.setPhase {s : State} (h : RunInvariant s) {p : Phase} (hs : s.phase ≠ .faulted)
    (hp : p ≠ .faulted) (hcontroller : PhaseInv (s.setPhase p)) (hsequence : SequenceInv (s.setPhase p)) :
    RunInvariant (s.setPhase p) :=
  { h with
    lengthsAddUp := (h.lengths_eq_dp hs).trans (decodedBytes_of_ne_faulted (s := s.setPhase p) hp).symm
    controller := hcontroller
    sequence := hsequence }

/-- DECODE in Idle: nothing is decoded yet, so all the bytes are left to decode, and none where there are none. -/
theorem RunInvariant.startDecode {s : State} (h : RunInvariant s) (hp : s.phase = .idle) :
    RunInvariant (startDecode s) := by
  obtain ⟨hdp, hseq, hxp, hr⟩ := (phaseInv_idle hp).mp h.controller
  unfold Machine.startDecode
  split
  · next hn =>
    have hbytes : s.bytes = [] := List.eq_nil_of_length_eq_zero ((bytes_length_of_dense h.bufferDense).trans hn)
    refine h.setPhase (by simp [hp]) nofun ⟨hdp.trans hn.symm, hxp, hr⟩ ?_
    show decodePass 0 s.bytes = (s.seq, s.record)
    rw [hbytes, hseq, hr, decodePass_nil]
  · next hn =>
    refine h.setPhase (by simp [hp]) nofun ⟨hdp ▸ Nat.pos_of_ne_zero hn, hxp, hr⟩ ?_
    have hall : (s.setPhase .decoding).decodingLeft = decodePass 0 s.bytes := by
      rw [State.decodingLeft, setPhase_dp, hdp]
      rfl
    rw [sequenceInv_decoding rfl, hall, setPhase_seq, hseq]
    rfl

/-- EXECUTE in Decoded: no entry is applied yet. -/
theorem RunInvariant.startExecute {s : State} (h : RunInvariant s) (hp : s.phase = .decoded) :
    RunInvariant (startExecute s) := by
  obtain ⟨hdp, hxp, hr⟩ := (phaseInv_decoded hp).mp h.controller
  have hwhole := (sequenceInv_after_decoding (by simp [hp]) (by simp [hp])).mp h.sequence
  unfold Machine.startExecute
  split
  · next hn => exact h.setPhase (by simp [hp]) nofun ⟨hdp, hxp.trans hn.symm, hr⟩ hwhole
  · next hn => exact h.setPhase (by simp [hp]) nofun ⟨hdp, hxp ▸ Nat.pos_of_ne_zero hn, hr⟩ hwhole

/-- A decode step that appends the next entry of the decoding. -/
theorem RunInvariant.appendDecoded {s : State} (h : RunInvariant s) (hp : s.phase = .decoding) {v : Variant}
    (hemit : v.emitted = true) (hle : s.dp + v.byteLength ≤ s.n)
    (hleft : s.decodingLeft = (v :: (s.appendDecoded v v.byteLength).decodingLeft.1,
      (s.appendDecoded v v.byteLength).decodingLeft.2)) : RunInvariant (s.appendDecoded v v.byteLength) := by
  obtain ⟨-, hxp, hr⟩ := (phaseInv_decoding hp).mp h.controller
  have hpos := byteLength_pos_of_emitted hemit
  have hfits := h.sequenceFits
  have hsum := h.lengths_eq_dp (by simp [hp])
  have hbefore := (sequenceInv_decoding hp).mp h.sequence
  rw [hleft, List.append_cons] at hbefore
  set t := s.appendDecoded v v.byteLength
  have hwhole : decodePass 0 t.bytes = (t.seq ++ t.decodingLeft.1, t.decodingLeft.2) := hbefore
  have hphase : decodedBytes t = t.dp ∧ PhaseInv t ∧ SequenceInv t := by
    by_cases hn : s.dp + v.byteLength = s.n
    · have hp' : t.phase = .decoded := if_pos hn
      rw [decodingLeft_of_end (s := t) h.bufferDense hn, List.append_nil, ← hr] at hwhole
      exact ⟨decodedBytes_of_ne_faulted (by simp [hp']), (phaseInv_decoded hp').mpr ⟨hn, hxp, hr⟩,
        (sequenceInv_after_decoding (by simp [hp']) (by simp [hp'])).mpr hwhole⟩
    · have hp' : t.phase = .decoding := (if_neg hn).trans hp
      exact ⟨decodedBytes_of_ne_faulted (by simp [hp']),
        (phaseInv_decoding hp').mpr ⟨lt_of_le_of_ne hle hn, hxp, hr⟩, (sequenceInv_decoding hp').mpr hwhole⟩
  obtain ⟨hdecoded, hcontroller, hsequence⟩ := hphase
  exact { h with
    pointerInBuffer := hle
    sequenceFits := by simp [t]; omega
    indexInSequence := by simp [t, hxp]
    emittedOnly := List.forall_mem_append.mpr ⟨h.emittedOnly, by simpa using hemit⟩
    lengthsAddUp := by rw [hdecoded]; simp [t, hsum]
    controller := hcontroller
    sequence := hsequence
    registers := by simpa [t, hxp] using h.registers }

/-- A decode step that takes the fault in which the decoding ends (60_exceptions.md R112, R115). -/
theorem RunInvariant.raiseDecodeFault {s : State} (h : RunInvariant s) (hp : s.phase = .decoding) {code : FaultCode}
    {byte : Byte} (hc : code ≠ .none) (hleft : s.decodingLeft = ([], ⟨code, s.dp, byte⟩)) :
    RunInvariant (s.raiseDecodeFault code s.dp byte) := by
  obtain ⟨hlt, hxp, -⟩ := (phaseInv_decoding hp).mp h.controller
  have hwhole := (sequenceInv_decoding hp).mp h.sequence
  rw [hleft, List.append_nil] at hwhole
  exact { h with
    pointerInBuffer := hlt
    sequenceFits := h.sequenceFits.trans (Nat.le_succ _)
    lengthsAddUp := h.lengths_eq_dp (by simp [hp])
    controller := ⟨hxp, hc, hlt, rfl⟩
    sequence := hwhole }

/-- An execute step applies the next entry (40_execute_engine.md R69). -/
theorem RunInvariant.executeEntry {s : State} (h : RunInvariant s) (hp : s.phase = .executing)
    (hx : s.xp < s.seq.length) : RunInvariant (s.setRegs (s.seq[s.xp].regEffect s.regs)).advanceExecute := by
  obtain ⟨hdp, -, hr⟩ := (phaseInv_executing hp).mp h.controller
  have hsum := h.lengths_eq_dp (by simp [hp])
  have hwhole := (sequenceInv_after_decoding (by simp [hp]) (by simp [hp])).mp h.sequence
  have hregs : s.seq[s.xp].regEffect s.regs = executePass (s.seq.take (s.xp + 1)) .zero := by
    rw [executePass_take_succ hx, ← h.registers]
  set t := (s.setRegs (s.seq[s.xp].regEffect s.regs)).advanceExecute
  have hphase : decodedBytes t = s.dp ∧ PhaseInv t ∧ SequenceInv t := by
    by_cases hn : s.xp + 1 = s.seq.length
    · have hp' : t.phase = .executed := if_pos hn
      exact ⟨decodedBytes_of_ne_faulted (by simp [hp']), (phaseInv_executed hp').mpr ⟨hdp, hn, hr⟩,
        (sequenceInv_after_decoding (by simp [hp']) (by simp [hp'])).mpr hwhole⟩
    · have hp' : t.phase = .executing := (if_neg hn).trans hp
      exact ⟨decodedBytes_of_ne_faulted (by simp [hp']),
        (phaseInv_executing hp').mpr ⟨hdp, lt_of_le_of_ne hx hn, hr⟩,
        (sequenceInv_after_decoding (by simp [hp']) (by simp [hp'])).mpr hwhole⟩
  obtain ⟨hbytes, hcontroller, hsequence⟩ := hphase
  exact { h with
    indexInSequence := hx
    lengthsAddUp := hsum.trans hbytes.symm
    controller := hcontroller
    sequence := hsequence
    registers := hregs }

/-- The invariant along one step. -/
theorem step_keeps_runInvariant {s t : State} (h : RunInvariant s) (hstep : step s = .next t) : RunInvariant t := by
  obtain ⟨hp, hd⟩ | ⟨hp, -⟩ | ⟨hq, hh⟩ := step_cases hstep
  · obtain ⟨hlt, -, -⟩ := (phaseInv_decoding hp).mp h.controller
    obtain ⟨v, hemit, hle, hs, hleft⟩ | ⟨code, byte, hc, hs, hleft⟩ := decodeStep_of_dense h.bufferDense hlt
    · cases hs.symm.trans hd
      exact h.appendDecoded hp hemit hle hleft
    · cases hs.symm.trans hd
      exact h.raiseDecodeFault hp hc hleft
  · obtain ⟨-, hx, -⟩ := (phaseInv_executing hp).mp h.controller
    cases (executing_step_next hp hx).symm.trans hstep
    exact h.executeEntry hp hx
  · obtain ⟨-, rfl⟩ | ⟨c, cs, -, ⟨bytes, -, -, rfl⟩ | ⟨-, hp, rfl⟩ | ⟨-, hp, rfl⟩ | ⟨-, rfl⟩⟩ := hostTurn_cases hq hh
    · exact h
    · exact runInvariant_loadBytes _ bytes
    · exact (h.setCommands cs).startDecode hp
    · exact (h.setCommands cs).startExecute hp
    · exact h.setCommands cs

/-- Settles O52: the invariant is kept by each kind of step, and `N` changes only by a LOAD within the bound. -/
theorem everyStepKeepsTheInvariant : Obligations.EveryStepKeepsTheInvariant := by
  refine fun s t hstep => ⟨fun h => step_keeps_runInvariant h hstep, fun hn => ?_⟩
  obtain ⟨hkeep, -⟩ | ⟨bytes, cs, -, -, hle, rfl⟩ := step_buffer_cases hstep
  · rwa [hkeep]
  · exact hle

end Sys2Proof.Machine
end

section
/-! Proofs about whole runs (60_exceptions.md section 3, 70_reset_and_hazards.md section 2): what the invariant says of
a state, where a run stops, and that every program's run ends. -/

namespace Sys2Proof

/-! ### The cells no instruction writes -/

theorem home_of_hasIncrement {r : Reg} (h : r.hasIncrement = true) : r.home ∉ Machine.unwrittenCells := by
  rcases r with c | v
  · cases c <;> revert h <;> decide
  · cases v <;> decide

theorem home_of_hasDecrement {r : Reg} (h : r.hasDecrement = true) : r.home ∉ Machine.unwrittenCells := by
  rcases r with c | v
  · cases c <;> revert h <;> decide
  · cases v <;> decide

/-- An entry that the Decoder may emit names none of the seven cells (10_state.md R35). -/
theorem writes_of_emitted {v : Variant} (h : v.emitted = true) {c : Cell} (hc : c ∈ Machine.unwrittenCells) :
    v.writes ≠ some c := by
  intro hw
  cases v with
  | increment r =>
    cases hw
    exact home_of_hasIncrement h hc
  | decrement r =>
    cases hw
    exact home_of_hasDecrement h hc
  | _ => cases hw

end Sys2Proof

namespace Sys2Proof.Machine

theorem get_executePass_of_unwritten {c : Cell} (hc : c ∈ unwrittenCells) {vs : List Variant}
    (hvs : ∀ v ∈ vs, v.emitted = true) (f : Regs) : c.get (executePass vs f) = c.get f := by
  induction vs generalizing f with
  | nil => rfl
  | cons v vs ih =>
    obtain ⟨hv, hvs⟩ := List.forall_mem_cons.mp hvs
    rw [executePass_cons, ih hvs, get_regEffect_other (writes_of_emitted hv hc)]

/-- Settles O54: the registers are emitted entries applied to zero, and none of those writes the cell. -/
theorem unwrittenCellsStayZero : Obligations.UnwrittenCellsStayZero := by
  intro s h c hc
  rw [h.registers, get_executePass_of_unwritten hc (fun v hv => h.emittedOnly v (List.mem_of_mem_take hv)), get_zero]

/-! ### A decode fault -/

/-- A pass that faults decodes the bytes before the record's position without a fault to the same entries
(60_exceptions.md R115). -/
theorem decodePass_take_of_fault (pos : Nat) (bytes : List Byte) (h : (decodePass pos bytes).2.code ≠ .none) :
    ∃ d, (decodePass pos bytes).2.pos = pos + d ∧
      decodePass pos (bytes.take d) = ((decodePass pos bytes).1, .clear) := by
  induction pos, bytes using decodePass.induct with
  | case1 pos => simp [FaultRecord.clear] at h
  | case2 pos op hg => exact ⟨0, by simp [decodePass_truncated pos hg]⟩
  | case3 pos op hg ss rest hv => exact ⟨0, by simp [decodePass_unlisted pos rest hg hv]⟩
  | case4 pos op hg ss rest v hv ih =>
    rw [decodePass_listed pos rest hg hv] at h ⊢
    obtain ⟨d, hd, htake⟩ := ih h
    refine ⟨d + 2, by rw [hd]; omega, ?_⟩
    rw [List.take_succ_cons, List.take_succ_cons, decodePass_listed pos _ hg hv, htake]
  | case5 pos op rest hg ih =>
    have hg : isGroupByte op = false := by simpa using hg
    rw [decodePass_primary pos rest hg] at h ⊢
    obtain ⟨d, hd, htake⟩ := ih h
    refine ⟨d + 1, by rw [hd]; omega, ?_⟩
    rw [List.take_succ_cons, decodePass_primary pos _ hg, htake]

/-- Settles O55: in Faulted no entry is applied, and `seq` and the record are the decoding of the whole buffer. -/
theorem decodeFaultsArePrecise : Obligations.DecodeFaultsArePrecise := by
  intro s h hp
  obtain ⟨hxp, hc, -, -⟩ := (phaseInv_faulted hp).mp h.controller
  have hwhole := (sequenceInv_after_decoding (by simp [hp]) (by simp [hp])).mp h.sequence
  obtain ⟨d, hd, htake⟩ := decodePass_take_of_fault 0 s.bytes (by rwa [hwhole])
  rw [hwhole, Nat.zero_add] at hd
  refine ⟨by simpa [hxp] using h.registers, h.flagsFalse, ?_, h.lengthsAddUp.trans (decodedBytes_faulted hp)⟩
  rw [hd, htake, hwhole]

/-! ### Where a run stops -/

/-- Settles O53: a pass always has a next step, and of the host's commands only these two can be refused in a quiescent
phase. -/
theorem stepsStopOnlyOnRefusedCommands : Obligations.StepsStopOnlyOnRefusedCommands := by
  intro s h
  obtain hp | hp | hq := phase_cases s.phase
  · obtain ⟨hlt, -, -⟩ := (phaseInv_decoding hp).mp h.controller
    rw [step_of_decoding hp]
    obtain ⟨v, -, -, hs, -⟩ | ⟨code, byte, -, hs, -⟩ := decodeStep_of_dense h.bufferDense hlt
    · exact .inl ⟨_, hs⟩
    · exact .inl ⟨_, hs⟩
  · obtain ⟨-, hx, -⟩ := (phaseInv_executing hp).mp h.controller
    exact .inl ⟨_, executing_step_next hp hx⟩
  · cases hc : s.commands with
    | nil => exact .inl ⟨s, step_of_no_command hq hc⟩
    | cons c cs =>
      have hstep := step_of_command hq hc
      have hq' : (s.setCommands cs).phase.quiescent = true := hq
      cases c with
      | load bytes =>
        have hstep := step_of_load hq hc
        by_cases hle : bytes.length ≤ Config.maxBufLen
        · exact .inl ⟨_, hstep.trans (cmdLoad_of_le hle _)⟩
        · have hgt := Nat.lt_of_not_le hle
          exact .inr ⟨hq, .inl ⟨bytes, cs, rfl, hgt, hstep.trans (cmdLoad_of_gt hgt _)⟩⟩
      | decode =>
        obtain ⟨t, ht⟩ := decode_of_quiescent hq'
        exact .inl ⟨t, hstep.trans ht⟩
      | execute =>
        obtain ⟨t, ht⟩ := execute_of_quiescent hq'
        exact .inl ⟨t, hstep.trans ht⟩
      | assemble source => exact .inr ⟨hq, .inr ⟨source, cs, rfl, hstep⟩⟩

/-! ### A program's run -/

theorem runSteps_keeps_runInvariant {k : Nat} {s t : State} (h : RunInvariant s) (hrun : runSteps k s = .next t) :
    RunInvariant t := by
  induction k generalizing s with
  | zero =>
    cases hrun
    exact h
  | succ k ih =>
    obtain ⟨r, hr, hrest⟩ := runSteps_succ_cases hrun
    exact ih (step_keeps_runInvariant h hr) hrest

/-- DECODE in Idle: within a step and one a byte the decode pass is over, with the buffer as it was. -/
theorem runSteps_decode {s : State} (h : RunInvariant s) (hp : s.phase = .idle) {cs : List Command}
    (hc : s.commands = .decode :: cs) :
    ∃ k t, k ≤ 1 + s.n ∧ runSteps k s = .next t ∧ (t.phase = .decoded ∨ t.phase = .faulted) ∧
      t.commands = cs ∧ t.buf = s.buf ∧ t.n = s.n := by
  have hstep : step s = .next (startDecode (s.setCommands cs)) := by
    rw [step_of_command (by rw [hp]; rfl) hc]
    exact decode_of_idle hp
  obtain ⟨hdp, -, -, hr⟩ := (phaseInv_idle hp).mp h.controller
  by_cases hn : s.n = 0
  · refine ⟨1, _, by omega, runSteps_succ hstep 0, ?_, rfl, rfl, rfl⟩
    simp [startDecode, hn]
  · have hp' : (startDecode (s.setCommands cs)).phase = .decoding := if_neg hn
    obtain ⟨k, hk, hrun⟩ := runSteps_decodePass hp' h.bufferDense (hdp ▸ Nat.pos_of_ne_zero hn) hr
    have hk : k ≤ s.n := hk.trans (Nat.sub_le _ _)
    refine ⟨k + 1, _, by omega, (runSteps_succ hstep k).trans hrun, ?_, rfl, rfl, rfl⟩
    simp only [State.endDecodePass]
    split <;> simp

/-- EXECUTE after the decode pass: within a step and one a byte the entries are applied, or it has no effect after a
fault. -/
theorem runSteps_execute {s : State} (h : RunInvariant s) (hp : s.phase = .decoded ∨ s.phase = .faulted)
    {cs : List Command} (hc : s.commands = .execute :: cs) :
    ∃ k t, k ≤ 1 + s.n ∧ runSteps k s = .next t ∧ (t.phase = .executed ∨ t.phase = .faulted) ∧
      t.commands = cs ∧ t.buf = s.buf := by
  have hq : s.phase.quiescent = true := by obtain hp | hp := hp <;> rw [hp] <;> rfl
  have hstep := step_of_command hq hc
  obtain hp | hp := hp
  · have hstep := hstep.trans (execute_of_decoded hp)
    obtain ⟨-, hxp, -⟩ := (phaseInv_decoded hp).mp h.controller
    by_cases hn : s.seq.length = 0
    · exact ⟨1, _, by omega, runSteps_succ hstep 0, .inl (if_pos hn), rfl, rfl⟩
    · have hp' : (startExecute (s.setCommands cs)).phase = .executing := if_neg hn
      have hx : s.xp < s.seq.length := by omega
      obtain ⟨-, hrun⟩ := executePassAppliesEntriesInOrder _ hp' hx
      have hlen := h.sequenceFits.trans h.pointerInBuffer
      have hk : s.seq.length - s.xp ≤ s.n := (Nat.sub_le _ _).trans hlen
      exact ⟨s.seq.length - s.xp + 1, _, by omega, (runSteps_succ hstep _).trans hrun, .inl rfl, rfl, rfl⟩
  · have hstep := hstep.trans (execute_of_faulted hp)
    exact ⟨1, _, by omega, runSteps_succ hstep 0, .inr hp, rfl, rfl⟩

/-- Settles O56: the two passes end, and in the state they end in the invariant gives every field. -/
theorem everyProgramRunsToItsEnd : Obligations.EveryProgramRunsToItsEnd := by
  refine fun s bytes => ⟨fun hq hle hc => ?_, ?_⟩
  · exact (step_of_load hq hc).trans (cmdLoad_of_le hle _)
  · have h := (runInvariant_loadBytes s bytes).setCommands [.decode, .execute]
    obtain ⟨j, r, hj, hrunj, hpr, hcr, hbr, hnr⟩ := runSteps_decode h rfl rfl
    obtain ⟨k, t, hk, hrunk, hpt, hct, hbt⟩ := runSteps_execute (runSteps_keeps_runInvariant h hrunj) hpr hcr
    have hrun := (runSteps_add j k hrunj).trans hrunk
    have ht := runSteps_keeps_runInvariant h hrun
    have hbytes : t.bytes = bytes := by
      rw [State.bytes, hbt, hbr]
      exact ofBytes_bytes bytes
    have hn : t.n = bytes.length := by rw [← bytes_length_of_dense ht.bufferDense, hbytes]
    have hwhole : decodePass 0 bytes = (t.seq, t.record) := by
      rw [← hbytes]
      exact (sequenceInv_after_decoding (by obtain hp | hp := hpt <;> simp [hp])
        (by obtain hp | hp := hpt <;> simp [hp])).mp ht.sequence
    refine ⟨j + k, t, ?_, hrun, ht.flagsFalse, hct, by rw [hwhole], by rw [hwhole], ?_⟩
    · have hnr : r.n = bytes.length := hnr
      have hj : j ≤ 1 + bytes.length := hj
      omega
    obtain hp | hp := hpt
    · obtain ⟨hdp, hxp, hr⟩ := (phaseInv_executed hp).mp ht.controller
      refine .inl ⟨hp, by rw [hr]; rfl, hdp.trans hn, ?_⟩
      rw [ht.registers, hxp, List.take_length]
    · obtain ⟨hxp, hc, -, hdp⟩ := (phaseInv_faulted hp).mp ht.controller
      exact .inr ⟨hp, hc, hdp, by simpa [hxp] using ht.registers⟩

end Sys2Proof.Machine
end

section
/-! Proofs about a placed instruction (opcode_table.json, log entries 3 and 8): a table word placed in a state is its
row's bytes, and the next step runs them. -/

namespace Sys2Proof.Machine

theorem withFetchWord_encode (s : State) (i : Instr) :
    s.withFetchWord (8 * (encode i).length) (tableWord (encode i)) = s.placeBytes (encode i) := by
  simp [State.withFetchWord, tableBytes_tableWord]

section
variable {s : State} {bytes : List Byte} {i : Instr} (hd : decode bytes = .ok (i, bytes.length))
include hd

/-- Bytes of a row with an entry stand decoded, with their entry the next to apply. -/
theorem placeBytes_of_variant {v : Variant} (hv : i.variant? = some v) :
    s.placeBytes bytes =
      { s with buf := Memory.ofBytes bytes, n := bytes.length, dp := bytes.length, seq := [v], xp := 0,
               phase := .executing } := by
  simp [State.placeBytes, hd, hv]

/-- Bytes of a fault row are the next to decode. -/
theorem placeBytes_of_fault (hv : i.variant? = none) :
    s.placeBytes bytes =
      { s with buf := Memory.ofBytes bytes, n := bytes.length, dp := 0, seq := [], xp := 0, phase := .decoding } := by
  simp [State.placeBytes, hd, hv]

theorem exec_placeBytes_of_variant {v : Variant} (hv : i.variant? = some v) :
    ∃ t, exec i (s.placeBytes bytes) = .next t ∧
      step (s.placeBytes bytes) = .next { t with xp := 1, phase := .executed } := by
  refine ⟨_, exec_of_variant hv _, ?_⟩
  rw [placeBytes_of_variant hd hv, step_of_executing rfl, executeStep_eq (v := v) rfl]
  rfl

theorem exec_placeBytes_of_fault (hv : i.variant? = none) :
    ∃ t, exec i (s.placeBytes bytes) = .next t ∧ step (s.placeBytes bytes) = .next t := by
  have hplace := placeBytes_of_fault (s := s) hd hv
  have hp : (s.placeBytes bytes).phase = .decoding := by rw [hplace]
  have hb : (s.placeBytes bytes).buf.map Prod.fst = List.range (s.placeBytes bytes).n := by
    rw [hplace]
    exact ofBytes_addresses bytes
  have hlt : (s.placeBytes bytes).dp < (s.placeBytes bytes).n := by
    rw [hplace]
    cases bytes with
    | nil => cases hd
    | cons op rest => exact Nat.succ_pos _
  have hrest : (s.placeBytes bytes).bytes.drop (s.placeBytes bytes).dp = bytes := by
    rw [hplace]
    exact ofBytes_bytes bytes
  obtain ⟨read, hf, hread⟩ := fetch_of_dense hb hlt
  rw [hrest, hd] at hread
  exact (decodeStepRunsTheRowAtThePointer _ read i _ hp hf hread).2 hv

end

/-- Settles O30: the word's bytes are the row's encoding, and placed they are the row's entry in the execute pass or the
bytes that the decode pass reads. -/
theorem placedTableWordRunsNext : Obligations.PlacedTableWordRunsNext := by
  intro i s hwf
  refine ⟨decodeTableWord_encode hwf, ?_⟩
  rw [withFetchWord_encode]
  cases hv : i.variant? with
  | some v => exact exec_placeBytes_of_variant (decode_encode hwf) hv
  | none => exact exec_placeBytes_of_fault (decode_encode hwf) hv

end Sys2Proof.Machine
end
